-- ==== Sys2Proof/Word.lean ====
section
/-! DEFINITION. The word types of the FIFO word marshaller (00_scope.md rules R6, R8). -/

namespace Sys2Proof

/-- `BYTE_BITS = 8` (R6). -/
abbrev Byte := BitVec 8

/-- One FIFO word, `WORD_BITS = 32` (R6). -/
abbrev Word := BitVec 32

/-- A bus address, `ADDR_BITS = 32` (R6). -/
abbrev Addr := BitVec 32

/-- A 64-bit command descriptor (R41). -/
abbrev Descriptor := BitVec 64

end Sys2Proof
end

