-- ==== Sys2Proof/Syntax.lean ====
section
/-! DEFINITION. The three commands (30_encoding.md rules R40, R43), one constructor per row of spec/opcode_table.json.
Operands are naturals, as R42 assembles them (unsigned, zero extended). -/

namespace Sys2Proof

inductive Instr
  /-- `FWR ch, [b0 ... b(len-1)]`: write `len` bytes of the source stream to channel `ch` (R60). -/
  | fwr (ch len : Nat)
  /-- `FRD len`: read `len` bytes from channel 0 (R66). -/
  | frd (len : Nat)
  /-- `FRDW len`: read `len` words from channel 0 (R70). -/
  | frdw (len : Nat)
  deriving DecidableEq, Repr

end Sys2Proof
end

