-- ==== Sys2Proof/WellFormed.lean ====
section
/-! DEFINITION. Which command terms a descriptor can carry: the fields fit their widths (R42, R49, D9, D10). -/

namespace Sys2Proof

/-- A channel index fits `CH_BITS = 8` (R42). An index above 15 is well formed as an encoding (R44). -/
def channelFits (ch : Nat) : Bool := decide (ch < 2 ^ 8)

/-- A length fits `LEN_BITS = 32` (R42). -/
def lengthFits (len : Nat) : Bool := decide (len < 2 ^ 32)

/-- "every command `c` whose fields fit their widths" (R49). -/
def Instr.wellFormed : Instr → Bool
  | .fwr ch len => channelFits ch && lengthFits len
  | .frd len => lengthFits len
  | .frdw len => lengthFits len

end Sys2Proof
end

