-- ==== Sys2Proof/Decode.lean ====
section
/-! DEFINITION. Decoding and encoding of descriptors (30_encoding.md rules R41 to R49). -/

namespace Sys2Proof

/-- Why a descriptor is illegal (R44, R76). Every reason raises the same cause `ILLEGAL_CMD`. -/
inductive Illegal
  /-- `RSV != 0` with any `OP`. -/
  | reservedNonzero
  /-- `OP` outside `0x1 .. 0x3`. -/
  | unknownOp
  /-- `CH != 0` with `OP = 0x2` or `OP = 0x3`. -/
  | channelOnRead
  deriving DecidableEq, Repr

/-- What the decoder reads from a descriptor. -/
inductive Decoded
  | cmd (i : Instr)
  | illegal (why : Illegal)
  deriving DecidableEq, Repr

/-- `d[63:60]` (R41). -/
def opField (d : Descriptor) : BitVec 4 := d.extractLsb' 60 4

/-- `d[59:40]` (R41). -/
def rsvField (d : Descriptor) : BitVec 20 := d.extractLsb' 40 20

/-- `d[39:32]` (R41). -/
def chField (d : Descriptor) : BitVec 8 := d.extractLsb' 32 8

/-- `d[31:0]` (R41). -/
def lenField (d : Descriptor) : BitVec 32 := d.extractLsb' 0 32

/-- `Decode(d)` (R49), total on 64-bit values, operands assembled by R42. -/
def decode (d : Descriptor) : Decoded :=
  if rsvField d ≠ 0 then .illegal .reservedNonzero
  else if opField d = 0x1 then .cmd (.fwr (chField d).toNat (lenField d).toNat)
  else if opField d = 0x2 then
    if chField d = 0 then .cmd (.frd (lenField d).toNat) else .illegal .channelOnRead
  else if opField d = 0x3 then
    if chField d = 0 then .cmd (.frdw (lenField d).toNat) else .illegal .channelOnRead
  else .illegal .unknownOp

/-- `Encode` (R49). -/
def encode : Instr → Descriptor
  | .fwr ch len => BitVec.ofNat 64 (0x1 * 2 ^ 60 + 2 ^ 32 * ch + len)
  | .frd len => BitVec.ofNat 64 (0x2 * 2 ^ 60 + len)
  | .frdw len => BitVec.ofNat 64 (0x3 * 2 ^ 60 + len)

/-- A descriptor from the two words of a 32-bit transport: `d[63:32]` first, `d[31:0]` second (R41). -/
def descriptorOfWords (first second : BitVec 32) : Descriptor := first ++ second

/-- The command of a decoder's answer, if there is one. -/
def Decoded.instr? : Decoded → Option Instr
  | .cmd i => some i
  | .illegal _ => none

/-- The instruction the decoder reads from the descriptor whose bits are `w`, numbered as spec/opcode_table.json numbers
them (bit 0 the least significant bit of the one 64-bit descriptor); the bits above `nbits` are zero. -/
def decodeTableWord (nbits w : Nat) : Option Instr :=
  if nbits ≤ 64 then (decode (BitVec.ofNat 64 (w % 2 ^ nbits))).instr? else none

/-- One row of the opcode map (R43): a descriptor is the command of the row exactly when `d AND mask = match`. -/
structure OpRow where
  mnemonic : String
  pattern : Descriptor
  mask : Descriptor
  deriving DecidableEq, Repr

def OpRow.holds (r : OpRow) (d : Descriptor) : Bool := decide (d &&& r.mask = r.pattern)

/-- The opcode map (R43), written from its match and mask columns. -/
def fwrRow : OpRow := ⟨"FWR", 0x1000000000000000, 0xFFFFFF0000000000⟩
def frdRow : OpRow := ⟨"FRD", 0x2000000000000000, 0xFFFFFFFF00000000⟩
def frdwRow : OpRow := ⟨"FRDW", 0x3000000000000000, 0xFFFFFFFF00000000⟩
def opcodeMap : List OpRow := [fwrRow, frdRow, frdwRow]

/-- The row of the opcode map a command belongs to (R43). -/
def Instr.row : Instr → OpRow
  | .fwr _ _ => fwrRow
  | .frd _ => frdRow
  | .frdw _ => frdwRow

end Sys2Proof
end

