-- ==== Sys2Proof/Config.lean ====
section
/-! DEFINITION. The implementation parameters (00_scope.md rules R6, R22) and the one free value of the model. -/

namespace Sys2Proof

/-- `BYTE_ORDER` (R27): how four bytes make a word. -/
inductive ByteOrder
  | le
  | be
  deriving DecidableEq, Repr

/-- The configuration record (R6, R22): the parameters the spec leaves OPEN and the one it gives a default for.
All are naturals (R8). The defaults are R6's: `BYTE_ORDER = LE`, `FIFO_DEPTH_WORDS = 320`. -/
structure Config where
  fifoBase : Nat
  fifoOffset : Nat
  windowSize : Nat
  byteOrder : ByteOrder := .le
  fifoDepthWords : Nat := 320
  deriving DecidableEq, Repr

/-- `CFG_T`, the configuration the spec uses for examples (R6). No rule depends on it.
DESIGN CHOICE (log 1): `State.reset` carries it. -/
def Config.cfgT : Config :=
  { fifoBase := 0x50000000, fifoOffset := 0x1000, windowSize := 0x1000 }

/-- The FREE VALUE of the model (R36, U3): the word the environment answers to a read when no answer is queued,
one draw per read, under no law. It has no body, so no proof can see what it is. -/
opaque Config.freeWord : Nat → Word

/-- `NUM_CHANNELS` (R6). -/
abbrev numChannels : Nat := 16

/-- `MAX_CHANNEL` (R6). -/
abbrev maxChannel : Nat := 15

/-- `READ_CHANNEL` (R6): the channel every read command uses. -/
abbrev readChannel : Nat := 0

end Sys2Proof
end

