-- ==== Sys2Proof/Machine/State.lean ====
section
/-! DEFINITION. The state of the machine: the block's registers (10_state.md rules R10 to R15), what stands at its ports
(R18), the environment (20_memory.md rule R36), the event history (00_scope.md rule R8) and the schedule of agents. -/

namespace Sys2Proof.Machine

/-- `STATE` (R11). The code `0b11` is never taken and is not represented (U11). -/
inductive Phase
  | idle
  | busy
  | halted
  deriving DecidableEq, Repr

/-- `CAUSE` (R15, R74). The code 3 is never produced and is not represented (U11). -/
inductive Cause
  | none
  | channelRange
  | illegalCmd
  deriving DecidableEq, Repr

/-- The externally visible events of the block (R8). -/
inductive Event
  | accept (d : Descriptor)
  | srcTake (bytes : List Byte)
  | busWrite (a : Addr) (w : Word)
  | busRead (a : Addr) (w : Word)
  | dstBytes (bytes : List Byte)
  | dstWord (w : Word)
  | done
  | halt (c : Cause)
  | reset
  deriving DecidableEq, Repr

/-- The FIFO device behind the bus port: the environment, not state of the block (R20, R36). -/
inductive Device
  /-- The oracle of R36, with the answers it will give to the next reads in `Window(0)`, the one channel read from; when none is
  left, and in every other window, it answers a free value (U3). -/
  | oracle (answers : List Word)
  /-- The test environment `LOOPBACK(ch)` of R38 with its queue `Q`, oldest word first. -/
  | loopback (ch : Fin numChannels) (queue : List Word)
  deriving DecidableEq, Repr

/-- One move of some agent. The block itself is one of them; the others are the host (R18, R46, R96), the reset input (R87),
the device's own changes (R20) and other bus agents (R93). -/
inductive Turn
  /-- The block takes its step. -/
  | block
  /-- The reset input (R87, R88). -/
  | reset
  /-- The host presents a descriptor on the command port (R19). -/
  | present (d : Descriptor)
  /-- The host sends one word of a descriptor over a 32-bit transport (R41). -/
  | presentHalf (w : BitVec 32)
  /-- The host supplies bytes on the source stream (R46). -/
  | supply (bytes : List Byte)
  /-- The environment starts or stops completing bus accesses (R96). -/
  | setBusReady (b : Bool)
  /-- The host starts or stops draining the destination byte stream (R96). -/
  | setByteSinkReady (b : Bool)
  /-- The host starts or stops draining the destination word stream (R96). -/
  | setWordSinkReady (b : Bool)
  /-- The device changes by itself, for example by USB traffic (R20). -/
  | deviceChange (dev : Device)
  /-- Another agent writes on the bus (R93). -/
  | otherWrite (a : Addr) (w : Word)
  /-- Another agent reads on the bus (R93). -/
  | otherRead (a : Addr)
  deriving DecidableEq, Repr

end Sys2Proof.Machine

namespace Sys2Proof.Machine

/-- The whole machine. `cfg` never changes (R22); `trace`, `draws` and `turns` are the model's own. -/
structure State where
  /-- The configuration (R6, R22). -/
  cfg : Config
  /-- `STATE` (R11). -/
  state : Phase
  /-- `CAUSE` (R15). -/
  cause : Cause
  /-- `INFO` (R15). -/
  info : Descriptor
  /-- `OPREG` (R12). -/
  opreg : BitVec 4
  /-- `CHREG` (R12). -/
  chreg : BitVec 8
  /-- `LENREG` (R12). -/
  lenreg : BitVec 32
  /-- `AREG` (R12). -/
  areg : Addr
  /-- `NREG` (R12). -/
  nreg : BitVec 32
  /-- `IDX` (R14). -/
  idx : BitVec 32
  /-- `WREG` (R13). -/
  wreg : Word
  /-- Descriptors presented on the command port and held, oldest first (R19). -/
  cmd : List Descriptor
  /-- The first word of a descriptor on a 32-bit transport, when the second has not come yet (R41). -/
  cmdHalf : Option (BitVec 32)
  /-- Bytes supplied on the source stream and not taken, oldest first (R46, R95). -/
  src : List Byte
  /-- Whether the environment completes bus accesses (R96). -/
  busReady : Bool
  /-- Whether the host drains the destination byte stream (R96). -/
  byteSinkReady : Bool
  /-- Whether the host drains the destination word stream (R96). -/
  wordSinkReady : Bool
  /-- The FIFO device (R36). -/
  device : Device
  /-- How many free answers have been drawn (index of `Config.freeWord`). -/
  draws : Nat
  /-- The events so far, oldest first (R8). -/
  trace : List Event
  /-- Who moves next; when it is empty the block moves. -/
  turns : List Turn
  deriving DecidableEq, Repr

/-- Why the machine stops. -/
inductive Fault
  /-- The block is given a turn in `STATE = HALTED`, where no step is enabled for ever (R79: "A model treats `HALTED` as a
  fault state"). Raised by the block's turn only; safe: the spec's block makes no step there either. -/
  | halted (cause : Cause)
  deriving DecidableEq, Repr

/-- Why the model gives no step. -/
inductive Refusal
  /-- The instruction has no meaning yet. No arm of `exec` raises it now. Safe. -/
  | notModelled (mnemonic : String)
  /-- The configuration is not well formed: "a model refuses a configuration that is not well formed" (R7). Raised by
  every step. Safe. -/
  | configNotWellFormed
  /-- An operand of a command term fits no descriptor: "a longer buffer cannot be expressed and so is refused at the
  boundary, never silently truncated" (R42). Raised by `exec` on terms the decoder never gives, and by `Written.call`. Safe. -/
  | operandOutOfRange
  /-- A bus address that is the base of no window: U5, "a model `refuse`s any other bus address from the block (none is
  ever generated)". Raised by transfer steps in states no run reaches. Safe. -/
  | addressOutsideWindows
  /-- `BUSY` with an access still to make and `OPREG` outside `0x1 .. 0x3`, for which R56 gives no transfer step. Raised in
  states no run reaches. Safe. -/
  | opregUnknown
  deriving DecidableEq, Repr

/-- The three outcomes of a step of this machine. -/
abbrev Result := Host.Outcome State Fault Refusal

/-- What the machine does next, as `nextAction` reads it from the state: run a command's meaning at a state, or answer at once. -/
inductive Action
  | run (i : Instr) (s : State)
  | answer (o : Result)

/-- The machine right after reset, for any configuration (R21, R87). `STATE`, `CAUSE` and `INFO` are the spec's; the value 0
of the unspecified registers is a DESIGN CHOICE (log 3), the rest is the model's (logs 4 to 9). -/
def State.resetWith (cfg : Config) : State :=
  { cfg := cfg, state := .idle, cause := .none, info := 0
    opreg := 0, chreg := 0, lenreg := 0, areg := 0, nreg := 0, idx := 0, wreg := 0
    cmd := [], cmdHalf := Option.none, src := []
    busReady := true, byteSinkReady := true, wordSinkReady := true
    device := .oracle [], draws := 0, trace := [], turns := [] }

/-- The machine right after reset. DESIGN CHOICE (log 1): the configuration is the spec's example `CFG_T`. -/
def State.reset : State := State.resetWith Config.cfgT

end Sys2Proof.Machine
end

