-- ==== Sys2Proof/Machine/Operands.lean ====
section
/-! DEFINITION. Operand forms: the configuration check, the window map and the address computation (R7, R24, R52), the
grouping arithmetic (R50, R51), `pack` and `unpack` (R28), padding and truncation (R61, R67). -/

namespace Sys2Proof.Machine

/-- `FIFO_BASE + FIFO_OFFSET + ch * WINDOW_SIZE` (R24). -/
def windowBase (cfg : Config) (ch : Nat) : Nat :=
  cfg.fifoBase + cfg.fifoOffset + ch * cfg.windowSize

/-- A configuration is well formed (R7). DEDUCED (log 2): the depth is at least one word, which R7's "because `WINDOW_SIZE >
0`" and R52's "the result is below `2^ADDR_BITS`" need. -/
def configOk (cfg : Config) : Bool :=
  decide (0 < cfg.fifoDepthWords) &&
  decide ((cfg.fifoBase + cfg.fifoOffset) % 4 = 0) &&
  decide (cfg.windowSize % 4 = 0) &&
  decide (4 * cfg.fifoDepthWords ≤ cfg.windowSize) &&
  decide (cfg.fifoBase + cfg.fifoOffset + 16 * cfg.windowSize ≤ 2 ^ 32)

/-- `FifoAddr(ch)` (R52): the channel range check and then the address. `none` is the halt `CHANNEL_RANGE`. -/
def fifoAddr (cfg : Config) (ch : Nat) : Option Addr :=
  if ch > maxChannel then none else some (BitVec.ofNat 32 (windowBase cfg ch))

/-- Whether an address is the base of one of the 16 windows (R24; U5). -/
def isWindowBase (cfg : Config) (a : Addr) : Bool :=
  (List.range numChannels).any fun ch => a.toNat == windowBase cfg ch

/-- Whether an address lies in `Window(ch)` (R24). -/
def inWindow (cfg : Config) (ch : Nat) (a : Addr) : Bool :=
  decide (windowBase cfg ch ≤ a.toNat) && decide (a.toNat < windowBase cfg ch + cfg.windowSize)

/-- `ngroups(L)` (R50). -/
def ngroups (len : Nat) : Nat := (len + 3) / 4

/-- `gsize(L, g)` (R51). -/
def gsize (len g : Nat) : Nat := min 4 (len - 4 * g)

/-- `group(b, g)` (R51). -/
def group (b : List Byte) (g : Nat) : List Byte := (b.drop (4 * g)).take (gsize b.length g)

/-- `pack` (R28): one word from four bytes, `b0` the byte with the lowest buffer index. -/
def pack (o : ByteOrder) (b0 b1 b2 b3 : Byte) : Word :=
  match o with
  | .le => b3 ++ b2 ++ b1 ++ b0
  | .be => b0 ++ b1 ++ b2 ++ b3

/-- `unpack` (R28): the four bytes of a word in buffer order. -/
def unpack (o : ByteOrder) (w : Word) : List Byte :=
  match o with
  | .le => [w.extractLsb' 0 8, w.extractLsb' 8 8, w.extractLsb' 16 8, w.extractLsb' 24 8]
  | .be => [w.extractLsb' 24 8, w.extractLsb' 16 8, w.extractLsb' 8 8, w.extractLsb' 0 8]

/-- The zero padding of R61: the `k` bytes, then `4 - k` bytes `0x00`. -/
def padGroup (bytes : List Byte) : List Byte := bytes ++ List.replicate (4 - bytes.length) 0

/-- The word of a group (R61): `pack` of its padded bytes. -/
def groupWord (o : ByteOrder) (bytes : List Byte) : Word :=
  let p := padGroup bytes
  pack o (p.getD 0 0) (p.getD 1 0) (p.getD 2 0) (p.getD 3 0)

/-- The leading `k` bytes of a word (R67). -/
def leadingBytes (o : ByteOrder) (k : Nat) (w : Word) : List Byte := (unpack o w).take k

end Sys2Proof.Machine
end

