-- ==== Sys2Proof/Machine/Environment.lean ====
section
/-! DEFINITION. The FIFO device behind the bus port (20_memory.md rules R31, R36, R38). It is the environment: what it does
with a write and what it answers to a read is not behaviour of the block. -/

namespace Sys2Proof.Machine

/-- The device after a 32-bit write of `w` at `a`. The oracle has no law: its answers stay whatever they are (R36). In
`LOOPBACK(c)` a write at `WindowBase(c)` appends while there is room and any other write does nothing (R38). A write to a
full queue is unspecified (R38, U4): the device becomes the oracle with no answer fixed, so that every later answer is any word. DESIGN CHOICE (log 8). -/
def deviceWrite (cfg : Config) (dev : Device) (a : Addr) (w : Word) : Device :=
  match dev with
  | .oracle answers => .oracle answers
  | .loopback c q =>
    if a.toNat = windowBase cfg c.val then
      if q.length < cfg.fifoDepthWords then .loopback c (q ++ [w]) else .oracle []
    else .loopback c q

/-- What one read leaves: the word answered, the device after it, the draw counter after it. -/
structure ReadResult where
  word : Word
  dev : Device
  draws : Nat
  deriving DecidableEq, Repr

/-- The device's answer to a 32-bit read at `a`. In `Window(0)` the oracle gives its next answer, or a free value (R36, U3); a
read elsewhere is answered by a free value and leaves the answers for `Window(0)` alone (R93). `LOOPBACK(c)`
pops its queue at `WindowBase(0)`; an empty queue, and any other address, is answered by a free value (R38). That a read of
`LOOPBACK(c)` at another address of `Window(0)` leaves the queue alone is settled by no rule: DESIGN CHOICE (log 8). A bus error
response is ignored (R37, U10): DESIGN CHOICE (log 10). -/
def deviceRead (cfg : Config) (dev : Device) (draws : Nat) (a : Addr) : ReadResult :=
  match dev with
  | .oracle (w :: ws) =>
    if inWindow cfg readChannel a then ⟨w, .oracle ws, draws⟩
    else ⟨Config.freeWord draws, .oracle (w :: ws), draws + 1⟩
  | .oracle [] => ⟨Config.freeWord draws, .oracle [], draws + 1⟩
  | .loopback c q =>
    if a.toNat = windowBase cfg readChannel then
      match q with
      | w :: ws => ⟨w, .loopback c ws, draws⟩
      | [] => ⟨Config.freeWord draws, .loopback c [], draws + 1⟩
    else ⟨Config.freeWord draws, .loopback c q, draws + 1⟩

end Sys2Proof.Machine
end

