-- ==== Sys2Proof/Machine/Flags.lean ====
section
/-! DEFINITION. The block has no condition codes, flags or predicates (10_state.md rule R16). What it shows is the status
port: three read-only fields (R15) with the codes of R11 and R74. -/

namespace Sys2Proof.Machine

/-- The 2-bit code of `STATE` (R11). -/
def stateCode : Phase → BitVec 2
  | .idle => 0b00
  | .busy => 0b01
  | .halted => 0b10

/-- The 2-bit code of `CAUSE` (R15, R74). -/
def causeCode : Cause → BitVec 2
  | .none => 0
  | .channelRange => 1
  | .illegalCmd => 2

/-- What the host reads on the status port: `STATE`, `CAUSE`, `INFO` (R15). -/
structure Status where
  stateBits : BitVec 2
  causeBits : BitVec 2
  infoBits : BitVec 64
  deriving DecidableEq, Repr

def statusPort (s : State) : Status := ⟨stateCode s.state, causeCode s.cause, s.info⟩

end Sys2Proof.Machine
end

