-- ==== Sys2Proof/Machine/Ops.lean ====
section
/-! DEFINITION. The named operations over the registers and ports: events, single-word transfers (R53, R54), the halt entry
(R77), the command lifecycle (R55 to R58) and reset (R87, R88). -/

namespace Sys2Proof.Machine

/-- Append events to the history (R8). -/
def emit (es : List Event) (s : State) : State := { s with trace := s.trace ++ es }

/-- Take the oldest held descriptor off the command port (R19). -/
def takeDescriptor (s : State) : State := { s with cmd := s.cmd.drop 1 }

/-- Take the next `k` bytes of the source stream: `SrcTake` (R61). -/
def takeSource (k : Nat) (s : State) : State :=
  { s with src := s.src.drop k, trace := s.trace ++ [.srcTake (s.src.take k)] }

/-- `PortWrite(a, w)` (R54, R31): one 32-bit write, event `BusWrite(a, w)`. -/
def portWrite (a : Addr) (w : Word) (s : State) : State :=
  { s with device := deviceWrite s.cfg s.device a w, trace := s.trace ++ [.busWrite a w] }

/-- The word `PortRead(a)` returns (R53, R31). -/
def portReadWord (a : Addr) (s : State) : Word := (deviceRead s.cfg s.device s.draws a).word

/-- `PortRead(a)` (R53, R31): one 32-bit read, event `BusRead(a, w)`. -/
def portRead (a : Addr) (s : State) : State :=
  { s with
    device := (deviceRead s.cfg s.device s.draws a).dev
    draws := (deviceRead s.cfg s.device s.draws a).draws
    trace := s.trace ++ [.busRead a (portReadWord a s)] }

/-- `WREG <- w` and `IDX <- IDX + 1` (R61, R67, R71). -/
def advance (w : Word) (s : State) : State := { s with wreg := w, idx := s.idx + 1 }

/-- `raise HALT(cause, d)`, the halt entry (R77). Nothing else changes. -/
def raiseHalt (c : Cause) (d : Descriptor) (s : State) : State :=
  { s with state := .halted, cause := c, info := d, trace := s.trace ++ [.halt c] }

/-- The assignments of an accept step that does not halt (R55). -/
def latchCommand (op : BitVec 4) (ch len n : Nat) (a : Addr) (s : State) : State :=
  { s with
    opreg := op, chreg := BitVec.ofNat 8 ch, lenreg := BitVec.ofNat 32 len, areg := a
    nreg := BitVec.ofNat 32 n, idx := 0, state := .busy }

/-- The accept step (R55) for a command `i` with operation code `op`, using channel `ch`, length `len` and `n` accesses:
`Accept(d)`, then the address or the halt `CHANNEL_RANGE` (R52, R75). -/
def acceptCommand (i : Instr) (op : BitVec 4) (ch len n : Nat) (s : State) : State :=
  match fifoAddr s.cfg ch with
  | none => raiseHalt .channelRange (encode i) (emit [.accept (encode i)] s)
  | some a => latchCommand op ch len n a (emit [.accept (encode i)] s)

/-- Accepting an illegal descriptor (R55, R76): `Accept(d)`, then the halt `ILLEGAL_CMD`. -/
def acceptIllegal (d : Descriptor) (s : State) : State :=
  raiseHalt .illegalCmd d (emit [.accept d] s)

/-- The done step (R57). -/
def finishCommand (s : State) : State := { s with state := .idle, trace := s.trace ++ [.done] }

/-- The command in progress, read back from the latched registers (R12). `none` for an `OPREG` no accept step writes. -/
def latched (s : State) : Option Instr :=
  if s.opreg = 0x1 then some (.fwr s.chreg.toNat s.lenreg.toNat)
  else if s.opreg = 0x2 then some (.frd s.lenreg.toNat)
  else if s.opreg = 0x3 then some (.frdw s.lenreg.toNat)
  else none

/-- The step of a command that is due in `BUSY`: a transfer step when `IDX < NREG` (R56), the done step when `IDX = NREG`
(R57), and no step otherwise (R58; no run gets there). DESIGN CHOICE (log 13). -/
def busyStep (transfer : State → Result) (s : State) : Result :=
  if s.idx.toNat < s.nreg.toNat then transfer s
  else if s.idx = s.nreg then .next (finishCommand s)
  else .next s

/-- A transfer step's bus access is at a window base (U5) and is made when the environment and the host serve it; otherwise
the step has not begun and the block waits (R56, R95, R96): DESIGN CHOICE (log 7). -/
def transferWhen (ready : Bool) (after : State) (s : State) : Result :=
  if isWindowBase s.cfg s.areg then
    if ready then .next after else .next s
  else .refused .addressOutsideWindows

/-- The step of command `i` that is due at `s` (R55 to R58): its accept step in `IDLE`; its transfer or done step in `BUSY`
when it is the command in progress; a command that is not is held (R19); no step in `HALTED` (R79). A term no descriptor
carries is refused at the boundary (R42). DESIGN CHOICE (log 12): one call is one step of the command. -/
def commandStep (i : Instr) (accept : State → State) (transfer : State → Result) (s : State) : Result :=
  if i.wellFormed then
    match s.state with
    | .idle => .next (accept s)
    | .busy => if latched s = some i then busyStep transfer s else .next s
    | .halted => .fault (.halted s.cause)
  else .refused .operandOutOfRange

/-- Reset (R87, R88): the values of R21, the held descriptor and the bytes not yet moved dropped, event `Reset`. The
configuration, the FIFO device and the environment's readiness are not the block's and stay. DEDUCED (logs 4, 5): the source
bytes and a half descriptor are dropped with them. -/
def resetBlock (s : State) : State :=
  { State.resetWith s.cfg with
    busReady := s.busReady, byteSinkReady := s.byteSinkReady, wordSinkReady := s.wordSinkReady
    device := s.device, draws := s.draws
    trace := s.trace ++ [.reset], turns := s.turns }

end Sys2Proof.Machine
end

