-- ==== Sys2Proof/Machine/Read.lean ====
section
/-! DEFINITION. The read commands `FRD` and `FRDW` (42_read.md rules R66 to R73). -/

namespace Sys2Proof.Machine

/-- The state after an `FRD` transfer step that is made (R67): `BusRead`, then `DstBytes` of the leading bytes. -/
def afterFrd (s : State) : State :=
  let k := gsize s.lenreg.toNat s.idx.toNat
  let w := portReadWord s.areg s
  advance w (emit [.dstBytes (leadingBytes s.cfg.byteOrder k w)] (portRead s.areg s))

/-- The `FRD` transfer step (R67). It waits while the bus or the destination byte stream is not served (R96). -/
def transferFrd (s : State) : Result :=
  transferWhen (s.busReady && s.byteSinkReady) (afterFrd s) s

/-- `FRD` (R66). -/
def execFrd (len : Nat) (s : State) : Result :=
  commandStep (.frd len) (acceptCommand (.frd len) 0x2 readChannel len (ngroups len)) transferFrd s

/-- The state after an `FRDW` transfer step that is made (R71): `BusRead`, then `DstWord` of the word unchanged. -/
def afterFrdw (s : State) : State :=
  let w := portReadWord s.areg s
  advance w (emit [.dstWord w] (portRead s.areg s))

/-- The `FRDW` transfer step (R71). It waits while the bus or the destination word stream is not served (R96). -/
def transferFrdw (s : State) : Result :=
  transferWhen (s.busReady && s.wordSinkReady) (afterFrdw s) s

/-- `FRDW` (R70). -/
def execFrdw (len : Nat) (s : State) : Result :=
  commandStep (.frdw len) (acceptCommand (.frdw len) 0x3 readChannel len len) transferFrdw s

end Sys2Proof.Machine
end

