-- ==== Sys2Proof/Machine/Write.lean ====
section
/-! DEFINITION. The write command `FWR` (41_write.md rules R60 to R65). -/

namespace Sys2Proof.Machine

/-- The state after an `FWR` transfer step that is made (R61): `SrcTake` of the group, `BusWrite` of its padded word. -/
def afterFwr (s : State) : State :=
  let k := gsize s.lenreg.toNat s.idx.toNat
  let w := groupWord s.cfg.byteOrder (s.src.take k)
  advance w (portWrite s.areg w (takeSource k s))

/-- The `FWR` transfer step (R61). It waits while the source stream holds fewer than `gsize` bytes (R95) or the bus is not
served (R96). -/
def transferFwr (s : State) : Result :=
  transferWhen (s.busReady && decide (gsize s.lenreg.toNat s.idx.toNat ≤ s.src.length)) (afterFwr s) s

/-- `FWR` (R60). -/
def execFwr (ch len : Nat) (s : State) : Result :=
  commandStep (.fwr ch len) (acceptCommand (.fwr ch len) 0x1 ch len (ngroups len)) transferFwr s

end Sys2Proof.Machine
end

