-- ==== Sys2Proof/Machine/Dispatch.lean ====
section
/-! DEFINITION. The one dispatch of commands to their meanings: one arm per constructor of Instr. -/

namespace Sys2Proof.Machine

def exec (i : Instr) (s : State) : Host.Outcome State Fault Refusal :=
  match i with
  | .fwr ch len => Sys2Proof.Machine.execFwr ch len s
  | .frd len => Sys2Proof.Machine.execFrd len s
  | .frdw len => Sys2Proof.Machine.execFrdw len s

end Sys2Proof.Machine
end

