-- ==== Sys2Proof/Machine/Ports.lean ====
section
/-! DEFINITION. The other agents' moves (R18, R87, R93) and what the block does on its own turn: which command, if any, it
runs (R19, R55 to R58, R79). -/

namespace Sys2Proof.Machine

/-- One word of a descriptor over a 32-bit transport (R41): the first is kept, the second completes the descriptor. -/
def receiveHalf (w : BitVec 32) (s : State) : State :=
  match s.cmdHalf with
  | none => { s with cmdHalf := some w }
  | some first => { s with cmdHalf := none, cmd := s.cmd ++ [descriptorOfWords first w] }

/-- Another agent's read (R93). In `Window(0)` it takes the answer the block's next read was going to get (in `LOOPBACK(c)` only
at `WindowBase(0)`: DESIGN CHOICE, log 8); elsewhere it leaves what the block's reads are answered as it was. The word read is
seen by nobody in the model, so a read elsewhere counts no free answer (log 8). -/
def otherAgentReads (a : Addr) (s : State) : State :=
  { s with
    device := (deviceRead s.cfg s.device s.draws a).dev
    draws := if inWindow s.cfg readChannel a then (deviceRead s.cfg s.device s.draws a).draws else s.draws }

/-- The move of an agent other than the block. Only reset touches the block's registers or the history. -/
def takeTurn (t : Turn) (s : State) : State :=
  match t with
  | .block => s
  | .reset => resetBlock s
  | .present d => { s with cmd := s.cmd ++ [d] }
  | .presentHalf w => receiveHalf w s
  | .supply bytes => { s with src := s.src ++ bytes }
  | .setBusReady b => { s with busReady := b }
  | .setByteSinkReady b => { s with byteSinkReady := b }
  | .setWordSinkReady b => { s with wordSinkReady := b }
  | .deviceChange dev => { s with device := dev }
  | .otherWrite a w => { s with device := deviceWrite s.cfg s.device a w }
  | .otherRead a => otherAgentReads a s

/-- The block in `BUSY` with an `OPREG` that names no command: the done step still asks only for `IDX = NREG` (R57), a
transfer step has no meaning (R56). No run gets here. DESIGN CHOICE (log 13). -/
def orphanStep (s : State) : Result := busyStep (fun _ => .refused .opregUnknown) s

/-- What the block does on its turn: in `IDLE` it takes the oldest held descriptor (R19, R55) or does nothing (R58); in
`BUSY` it goes on with the latched command (R56, R57); in `HALTED` no step is enabled (R79). -/
def blockAction (s : State) : Action :=
  match s.state with
  | .halted => .answer (.fault (.halted s.cause))
  | .busy =>
    match latched s with
    | some i => .run i s
    | none => .answer (orphanStep s)
  | .idle =>
    match s.cmd with
    | [] => .answer (.next s)
    | d :: _ =>
      match decode d with
      | .cmd i => .run i (takeDescriptor s)
      | .illegal _ => .answer (.next (acceptIllegal d (takeDescriptor s)))

/-- Drop the turn that is being taken. -/
def dropTurn (s : State) : State := { s with turns := s.turns.drop 1 }

/-- What the machine does next: the configuration check (R7, R22), then the agent whose turn it is. With no turn listed the
block moves: DESIGN CHOICE (log 6). -/
def nextAction (s : State) : Action :=
  if configOk s.cfg then
    match s.turns with
    | [] => blockAction s
    | .block :: _ => blockAction (dropTurn s)
    | t :: _ => .answer (.next (takeTurn t (dropTurn s)))
  else .answer (.refused .configNotWellFormed)

/-- `s` with descriptor `d` presented so that the block accepts it on the very next step: first in the port, the block idle
with no cause shown, and the block's turn next. DESIGN CHOICE (log 11). -/
def presentNext (d : Descriptor) (s : State) : State :=
  { s with
    state := .idle, cause := .none, info := 0
    cmd := d :: s.cmd, turns := .block :: s.turns }

end Sys2Proof.Machine
end

