-- ==== Sys2Proof/Machine/Step.lean ====
section
/-! DEFINITION. One step of the machine, and the placing of a descriptor where the next step takes it. -/

namespace Sys2Proof.Machine

/-- The result of an action: `exec` for a command's meaning. -/
def Action.result : Action → Result
  | .run i t => exec i t
  | .answer o => o

/-- One step: the action `nextAction` names. -/
def step (s : State) : Host.Outcome State Fault Refusal := (nextAction s).result

/-- `s` with the descriptor whose bits are `w` (numbered as spec/opcode_table.json numbers them, the bits above `nbits`
zero) presented on the command port so that the very next step accepts it. -/
def State.withFetchWord (s : State) (nbits w : Nat) : State :=
  presentNext (BitVec.ofNat 64 (w % 2 ^ nbits)) s

end Sys2Proof.Machine
end

