-- ==== Sys2Proof/Machine/Written.lean ====
section
/-! DEFINITION. A command as a caller gives it, with its buffer (30_encoding.md rules R40, R46, R47): the descriptor and the
payload it stands for, the host's moves that present it, and the written form. -/

namespace Sys2Proof.Machine

/-- `fifo_write(channel, bytes)`, `fifo_read(buffer)` with a buffer of `len` bytes, `fifo_read_into(word_buffer)` with a
buffer of `n` words (R40). -/
inductive Written
  | fwr (ch : Nat) (bytes : List Byte)
  | frd (len : Nat)
  | frdw (n : Nat)
  deriving DecidableEq, Repr

/-- The command term: the `LEN` field of an `FWR` is the count of bytes in the bracket (R47). -/
def Written.instr : Written → Instr
  | .fwr ch bytes => .fwr ch bytes.length
  | .frd len => .frd len
  | .frdw n => .frdw n

/-- The bytes that follow the descriptor on the source stream (R46). -/
def Written.payload : Written → List Byte
  | .fwr _ bytes => bytes
  | .frd _ => []
  | .frdw _ => []

/-- The host's moves for one call: the descriptor on the command port, then the payload on the source stream (R46). `none` for
a call whose operands fit no descriptor: it is "refused at the boundary, never silently truncated" (R42, D10). -/
def Written.hostTurns (c : Written) : Option (List Turn) :=
  if c.instr.wellFormed then some [.present (encode c.instr), .supply c.payload] else none

/-- The host makes a call now: its moves come before those already listed. A call no descriptor can carry is refused and
presents nothing (R42). -/
def Written.call (c : Written) (s : State) : Result :=
  match c.hostTurns with
  | some moves => .next { s with turns := moves ++ s.turns }
  | none => .refused .operandOutOfRange

/-- One hex digit of the written form. -/
def hexDigit (n : Nat) : Char :=
  ['0', '1', '2', '3', '4', '5', '6', '7', '8', '9', 'A', 'B', 'C', 'D', 'E', 'F'].getD n '0'

/-- A byte as two hex digits (R47). -/
def byteChars (b : Byte) : List Char := [hexDigit (b.toNat / 16), hexDigit (b.toNat % 16)]

/-- The written form of R47, as characters: `FWR ch, [b0 b1 ...]`, `FRD L`, `FRDW n`. -/
def Written.chars : Written → List Char
  | .fwr ch bytes =>
    ['F', 'W', 'R', ' '] ++ Nat.toDigits 10 ch ++ [',', ' ', '['] ++ List.intercalate [' '] (bytes.map byteChars) ++ [']']
  | .frd len => ['F', 'R', 'D', ' '] ++ Nat.toDigits 10 len
  | .frdw n => ['F', 'R', 'D', 'W', ' '] ++ Nat.toDigits 10 n

end Sys2Proof.Machine
end

