-- ==== Sys2Proof/Safety.lean ====
section
/-! DEFINITION. The terms claims use: runs, the invariant of the machine, what a descriptor's acceptance raises, the events of
a whole command (R62, R68, R72), when two states differ only in registers the spec leaves unspecified (R21), which moves of others
leave a read alone (R93), and endless executions with their weak fairness (R96). -/

namespace Sys2Proof.Machine

/-- `n` steps, stopping at the first fault or refusal. -/
def run : Nat → State → Result
  | 0, s => .next s
  | n + 1, s =>
    match step s with
    | .next t => run n t
    | .fault f => .fault f
    | .refused r => .refused r

/-- It is the block's turn (no other agent moves first). -/
abbrev BlocksTurn (s : State) : Prop := s.turns = [] ∨ s.turns.head? = some .block

/-- What accepting a descriptor raises (R74, R81): `ILLEGAL_CMD` when it decodes to no command, `CHANNEL_RANGE` for `FWR`
with a channel above 15, nothing otherwise. -/
def acceptCause (d : Descriptor) : Cause :=
  match decode d with
  | .illegal _ => .illegalCmd
  | .cmd (.fwr ch _) => if ch > maxChannel then .channelRange else .none
  | .cmd (.frd _) => .none
  | .cmd (.frdw _) => .none

/-- The latched command is one an accept step writes (R12, R55): the channel in range and 0 for the reads, the address that
channel's window base, the number of accesses the command's, the counter not past it. -/
abbrev LatchOk (s : State) : Prop :=
  s.chreg.toNat ≤ maxChannel ∧
  (s.opreg = 0x1 ∨ ((s.opreg = 0x2 ∨ s.opreg = 0x3) ∧ s.chreg = 0)) ∧
  s.areg.toNat = windowBase s.cfg s.chreg.toNat ∧
  s.nreg.toNat = (if s.opreg = 0x3 then s.lenreg.toNat else ngroups s.lenreg.toNat) ∧
  s.idx.toNat ≤ s.nreg.toNat

/-- The invariant of the machine: the configuration is well formed (R7, R22), `CAUSE` and `INFO` tell why the block halted
and are 0 unless it did (R15, R77), and a command in progress is latched as R12 and R55 say. -/
abbrev Inv (s : State) : Prop :=
  configOk s.cfg = true ∧
  (s.cause ≠ .none ↔ s.state = .halted) ∧
  (s.cause = .none → s.info = 0) ∧
  (s.state = .halted → s.cause = acceptCause s.info) ∧
  (s.state = .busy → LatchOk s)

/-- The events of `FWR`'s transfer steps (R62): for each group, its `SrcTake` and the `BusWrite` of its word. -/
def fwrEvents (o : ByteOrder) (a : Addr) (b : List Byte) : List Event :=
  (List.range (ngroups b.length)).flatMap fun g =>
    [.srcTake (group b g), .busWrite a (groupWord o (group b g))]

/-- The events of `FRD len`'s transfer steps when the reads are answered with `ws` (R68). -/
def frdEvents (o : ByteOrder) (a : Addr) (len : Nat) (ws : List Word) : List Event :=
  (List.range (ngroups len)).flatMap fun g =>
    [.busRead a (ws.getD g 0), .dstBytes (leadingBytes o (gsize len g) (ws.getD g 0))]

/-- The events of `FRDW`'s transfer steps when the reads are answered with `ws` (R72). -/
def frdwEvents (a : Addr) (ws : List Word) : List Event :=
  ws.flatMap fun w => [.busRead a w, .dstWord w]

/-- The words the environment answers to `n` reads at `a` made one after the other with nothing in between (R36, R68). -/
def answersOf (cfg : Config) (dev : Device) (draws : Nat) (a : Addr) : Nat → List Word
  | 0 => []
  | n + 1 =>
    let r := deviceRead cfg dev draws a
    r.word :: answersOf cfg r.dev r.draws a n

/-- The bytes delivered on the destination byte stream by a sequence of events, in order (R18). -/
def deliveredBytes (es : List Event) : List Byte :=
  es.flatMap fun e => match e with | .dstBytes b => b | _ => []

/-- The words delivered on the destination word stream by a sequence of events, in order (R18). -/
def deliveredWords (es : List Event) : List Word :=
  es.flatMap fun e => match e with | .dstWord w => [w] | _ => []

/-- One access on the bus port. -/
inductive Access
  | read (a : Addr) (w : Word)
  | write (a : Addr) (w : Word)
  deriving DecidableEq, Repr

/-- The bus accesses in a sequence of events, in order (R31). -/
def busAccesses (es : List Event) : List Access :=
  es.flatMap fun e =>
    match e with
    | .busRead a w => [.read a w]
    | .busWrite a w => [.write a w]
    | _ => []

/-- An event with the word the environment answered, and the bytes copied out of it, set to 0: what is left is the kind of the
event, the bus address, what is written, and how many bytes are delivered (R36). -/
def Event.withoutAnswer : Event → Event
  | .busRead a _ => .busRead a 0
  | .dstBytes bytes => .dstBytes (List.replicate bytes.length 0)
  | .dstWord _ => .dstWord 0
  | .accept d => .accept d
  | .srcTake bytes => .srcTake bytes
  | .busWrite a w => .busWrite a w
  | .done => .done
  | .halt c => .halt c
  | .reset => .reset

/-- The moves of others that leave a read command alone: R93's premise "that no other agent accesses `Window(CHREG)`" for the
read channel (and, in the test environment `LOOPBACK(c)`, whose writes feed the reads, none writes in `Window(c)`), no reset, no
stop of a port, and no change of the device by itself (R20). -/
def LeavesReadsAlone (cfg : Config) (dev : Device) : Turn → Prop
  | .block | .present _ | .presentHalf _ | .supply _ => True
  | .setBusReady b | .setByteSinkReady b | .setWordSinkReady b => b = true
  | .reset | .deviceChange _ => False
  | .otherRead a => inWindow cfg readChannel a = false
  | .otherWrite a _ =>
    inWindow cfg readChannel a = false ∧
    match dev with
    | .oracle _ => True
    | .loopback c _ => inWindow cfg c.val a = false

/-! ## Endless executions and weak fairness (R96, U15) -/

/-- One move of the agent `u` names, whatever the state lists. -/
def stepBy (u : Turn) (s : State) : Result := step { s with turns := [u] }

/-- `σ` is the endless execution in which the moves `u 0`, `u 1`, ... are made one after the other from `σ 0`. -/
def IsExecution (σ : Nat → State) (u : Nat → Turn) : Prop := ∀ n, stepBy (u n) (σ n) = .next (σ (n + 1))

/-- Weak fairness of one action: if it is enabled at every moment from some moment on, it is taken at some moment after that. -/
def WeaklyFair (enabled taken : Nat → Prop) : Prop :=
  ∀ n, (∀ m, n ≤ m → enabled m) → ∃ m, n ≤ m ∧ taken m

/-- A transfer step is due: the block has an access to make (R56). -/
abbrev TransferDue (s : State) : Prop := s.state = .busy ∧ s.idx.toNat < s.nreg.toNat

/-- The done step is due (R57). -/
abbrev DoneDue (s : State) : Prop := s.state = .busy ∧ s.idx = s.nreg

/-- An accept step is due: the block is idle and a descriptor is held (R55). -/
abbrev AcceptDue (s : State) : Prop := s.state = .idle ∧ s.cmd ≠ []

/-- Whether the environment and the host serve the transfer step of a command: the access is answered, and the stream it needs
has its bytes or is drained (R95, R96). -/
def servedOf : Instr → State → Bool
  | .fwr _ _, s => s.busReady && decide (gsize s.lenreg.toNat s.idx.toNat ≤ s.src.length)
  | .frd _, s => s.busReady && s.byteSinkReady
  | .frdw _, s => s.busReady && s.wordSinkReady

/-- Whether the transfer step of the command in progress is served. -/
def served (s : State) : Bool :=
  match latched s with
  | some i => servedOf i s
  | none => false

/-- The fairness assumption of R96, "every access is answered, every stream is served, in finite time", as weak fairness and
nothing more: a transfer step due for ever is served on some turn of the block, and an accept or done step due for ever is given
a turn of the block. No bound on any wait (R99). -/
def Fair (σ : Nat → State) (u : Nat → Turn) : Prop :=
  WeaklyFair (fun n => TransferDue (σ n)) (fun n => u n = .block ∧ served (σ n) = true) ∧
  WeaklyFair (fun n => DoneDue (σ n)) (fun n => u n = .block) ∧
  WeaklyFair (fun n => AcceptDue (σ n)) (fun n => u n = .block)

/-- Two states that differ only in registers no rule reads before they are written (R21): `WREG` always, the latched command
and `IDX` outside `BUSY`. -/
def SameButUnspecified (s t : State) : Prop :=
  (∃ w, t = { s with wreg := w }) ∨
  (s.state ≠ .busy ∧ ∃ op ch len a n idx w,
    t = { s with opreg := op, chreg := ch, lenreg := len, areg := a, nreg := n, idx := idx, wreg := w })

/-- Two results that an observer of events, ports and status cannot tell apart: the same stop, or next states that differ only
in unspecified registers. -/
def ResultsAgree : Result → Result → Prop
  | .next s, .next t => SameButUnspecified s t
  | .fault f, .fault g => f = g
  | .refused p, .refused q => p = q
  | _, _ => False

end Sys2Proof.Machine
end

