-- ==== Sys2Proof/Certificates/Slice0/Obligations.lean ====
section
/-! DEFINITION. The statements for the provers, one for each numbered rule or group of rules of spec/ they formalise. -/

open Sys2Proof Sys2Proof.Machine

/-! ## Encoding -/

/-- Rows of 95_test_vectors.md section 2.2, from the encodings of R43: what each descriptor decodes to. -/
def Obligations.SpecDescriptorsDecode : Prop :=
  decode 0x1000000200000005 = .cmd (.fwr 2 5) ∧
  decode 0x1000000F00000007 = .cmd (.fwr 15 7) ∧
  decode 0x100000FF00000000 = .cmd (.fwr 255 0) ∧
  decode 0x10000000FFFFFFFF = .cmd (.fwr 0 4294967295) ∧
  decode 0x2000000000000006 = .cmd (.frd 6) ∧
  decode 0x3000000000000002 = .cmd (.frdw 2) ∧
  decode 0x0000000000000000 = .illegal .unknownOp ∧
  decode 0x1800000200000005 = .illegal .reservedNonzero ∧
  decode 0x2000000500000004 = .illegal .channelOnRead

/-- R49 whole: `Decode` is the spec's case distinction on the fields of the descriptor as a number, `Encode` the spec's sums,
and the two are inverse to each other. -/
def Obligations.DecodeAndEncodeAreInverse : Prop :=
  (∀ d : Descriptor, (decode d).instr? =
    (let op := d.toNat / 2 ^ 60
     let rsv := d.toNat / 2 ^ 40 % 2 ^ 20
     let ch := d.toNat / 2 ^ 32 % 2 ^ 8
     let len := d.toNat % 2 ^ 32
     if rsv ≠ 0 then none
     else if op = 1 then some (.fwr ch len)
     else if op = 2 ∧ ch = 0 then some (.frd len)
     else if op = 3 ∧ ch = 0 then some (.frdw len)
     else none)) ∧
  (∀ ch len, ch < 2 ^ 8 → len < 2 ^ 32 →
    (encode (.fwr ch len)).toNat = 1 * 2 ^ 60 + ch * 2 ^ 32 + len ∧
    (encode (.frd len)).toNat = 2 * 2 ^ 60 + len ∧
    (encode (.frdw len)).toNat = 3 * 2 ^ 60 + len) ∧
  (∀ i : Instr, i.wellFormed = true → decode (encode i) = .cmd i) ∧
  (∀ d i, decode d = .cmd i → i.wellFormed = true ∧ encode i = d)

/-- R43 whole: a descriptor is the command of a row exactly when `d AND mask = match`, for the three rows, and it matches at
most one row. -/
def Obligations.OpcodeRowsSelectTheCommand : Prop :=
  (∀ d : Descriptor, (∃ ch len, decode d = .cmd (.fwr ch len)) ↔ d &&& 0xFFFFFF0000000000 = 0x1000000000000000) ∧
  (∀ d : Descriptor, (∃ len, decode d = .cmd (.frd len)) ↔ d &&& 0xFFFFFFFF00000000 = 0x2000000000000000) ∧
  (∀ d : Descriptor, (∃ len, decode d = .cmd (.frdw len)) ↔ d &&& 0xFFFFFFFF00000000 = 0x3000000000000000) ∧
  (∀ d : Descriptor, (opcodeMap.filter fun r => r.holds d).length ≤ 1)

/-- R44 whole: which descriptors are illegal (`OP = 0`, `OP` in 4 to 15, `RSV` nonzero, `CH` nonzero on a read); accepting one
halts with `ILLEGAL_CMD` before any stream or bus event; an `FWR` descriptor with `CH > 15` is a legal encoding and halts with
`CHANNEL_RANGE`. -/
def Obligations.IllegalDescriptorHaltsBeforeAnyEffect : Prop :=
  (∀ d : Descriptor, (∃ why, decode d = .illegal why) ↔
    (opField d = 0x0 ∨ 0x4 ≤ (opField d).toNat ∨ rsvField d ≠ 0 ∨ (chField d ≠ 0 ∧ (opField d = 0x2 ∨ opField d = 0x3)))) ∧
  (∀ (s : State) (d : Descriptor) (ds : List Descriptor) (why : Illegal),
    configOk s.cfg = true → BlocksTurn s → s.state = .idle → s.cmd = d :: ds → decode d = .illegal why →
    step s = .next { s with
      turns := s.turns.drop 1, cmd := ds, state := .halted, cause := .illegalCmd, info := d
      trace := s.trace ++ [.accept d, .halt .illegalCmd] }) ∧
  (∀ (s : State) (d : Descriptor) (ds : List Descriptor),
    configOk s.cfg = true → BlocksTurn s → s.state = .idle → s.cmd = d :: ds →
    opField d = 0x1 → rsvField d = 0 → 15 < (chField d).toNat →
    decode d = .cmd (.fwr (chField d).toNat (lenField d).toNat) ∧
    step s = .next { s with
      turns := s.turns.drop 1, cmd := ds, state := .halted, cause := .channelRange, info := d
      trace := s.trace ++ [.accept d, .halt .channelRange] })

/-- R41, last paragraph: over a 32-bit transport `d[63:32]` comes first and `d[31:0]` second, and the descriptor stands at the
command port only when both have come. How the half word is held is the model's choice (log 4). -/
def Obligations.TwoWordsMakeOneDescriptor : Prop :=
  ∀ (s : State) (first second : BitVec 32) (ts : List Turn),
    configOk s.cfg = true → s.cmdHalf = none → s.turns = .presentHalf first :: .presentHalf second :: ts →
    step s = .next { s with turns := .presentHalf second :: ts, cmdHalf := some first } ∧
    run 2 s = .next { s with
      turns := ts, cmd := s.cmd ++ [BitVec.ofNat 64 (first.toNat * 2 ^ 32 + second.toNat)] }

/-- R46, R47 and R42: a caller's `FWR` with a byte buffer is the descriptor whose `LEN` is the number of bytes in the bracket,
followed on the source stream by exactly those bytes; the reads carry no payload. A call whose operands fit their fields is made:
two moves of the host, after which the block's registers and the history are untouched. A call whose operands do not fit (a
buffer of 2^32 bytes) is refused and presents nothing; the refusal's name is the model's choice (log 13). -/
def Obligations.CallPresentsItsDescriptorAndPayload : Prop :=
  (∀ (ch : Nat) (bytes : List Byte), (Written.fwr ch bytes).instr = .fwr ch bytes.length) ∧
  (∀ n : Nat, (Written.frd n).instr = .frd n ∧ (Written.frdw n).instr = .frdw n) ∧
  encode (Written.fwr 2 [0x01, 0x02, 0x03, 0x04, 0x05]).instr = 0x1000000200000005 ∧
  (∀ (s : State) (c : Written), configOk s.cfg = true → c.instr.wellFormed = true →
    ∃ u, c.call s = .next u ∧ run 2 u = .next { s with
      cmd := s.cmd ++ [encode c.instr]
      src := s.src ++ (match c with | .fwr _ bytes => bytes | .frd _ => [] | .frdw _ => []) }) ∧
  (∀ (s : State) (c : Written), c.instr.wellFormed = false →
    c.call s = .refused .operandOutOfRange ∧ c.hostTurns = none)

/-! ## Operands and the window map -/

/-- R28 whole: the formulas of `pack` and `unpack` for both byte orders, and that they are inverse bijections between four-byte
sequences and words. -/
def Obligations.PackAndUnpackAreInverse : Prop :=
  (∀ b0 b1 b2 b3 : Byte,
    (pack .le b0 b1 b2 b3).toNat = b0.toNat + b1.toNat * 2 ^ 8 + b2.toNat * 2 ^ 16 + b3.toNat * 2 ^ 24 ∧
    (pack .be b0 b1 b2 b3).toNat = b0.toNat * 2 ^ 24 + b1.toNat * 2 ^ 16 + b2.toNat * 2 ^ 8 + b3.toNat) ∧
  (∀ w : Word,
    (unpack .le w).map BitVec.toNat =
      [w.toNat % 2 ^ 8, w.toNat / 2 ^ 8 % 2 ^ 8, w.toNat / 2 ^ 16 % 2 ^ 8, w.toNat / 2 ^ 24] ∧
    (unpack .be w).map BitVec.toNat =
      [w.toNat / 2 ^ 24, w.toNat / 2 ^ 16 % 2 ^ 8, w.toNat / 2 ^ 8 % 2 ^ 8, w.toNat % 2 ^ 8]) ∧
  (∀ o b0 b1 b2 b3, unpack o (pack o b0 b1 b2 b3) = [b0, b1, b2, b3]) ∧
  (∀ o w, ∃ b0 b1 b2 b3, unpack o w = [b0, b1, b2, b3] ∧ pack o b0 b1 b2 b3 = w)

/-- R50's arithmetic: `ngroups(L) = (L + 3) div 4`, the other expression for it, its bound, and `ngroups(0) = 0`. -/
def Obligations.GroupCountIsTheCeiling : Prop :=
  ∀ len : Nat,
    ngroups len = (len + 3) / 4 ∧
    ngroups len = len / 4 + (if len % 4 ≠ 0 then 1 else 0) ∧
    (len < 2 ^ 32 → ngroups len ≤ 2 ^ 30) ∧
    ngroups 0 = 0

/-- R51 and its consequences: group `g` covers the bytes from `4g` on, at most four; every group but a last partial one has
four bytes; the groups joined in rising order are the buffer, so that they are disjoint and cover it once. -/
def Obligations.GroupsPartitionTheBuffer : Prop :=
  ∀ b : List Byte,
    (∀ g, g < ngroups b.length →
      group b g = (b.drop (4 * g)).take (min 4 (b.length - 4 * g)) ∧
      (group b g).length = gsize b.length g ∧
      1 ≤ gsize b.length g ∧ gsize b.length g ≤ 4 ∧
      (g < b.length / 4 → gsize b.length g = 4) ∧
      (gsize b.length g < 4 → g = ngroups b.length - 1 ∧ gsize b.length g = b.length % 4)) ∧
    (List.range (ngroups b.length)).flatMap (group b) = b

/-- R7: for a configuration whose depth is at least one word, the four conditions of a well-formed configuration (that a depth
of 0 is refused is the model's reading, log 2); every step refuses a configuration that is not well formed; the windows of a
well-formed configuration do not overlap and none wraps the address space. -/
def Obligations.ConfigurationIsCheckedAndWindowsDisjoint : Prop :=
  (∀ cfg : Config, 0 < cfg.fifoDepthWords → (configOk cfg = true ↔
    ((cfg.fifoBase + cfg.fifoOffset) % 4 = 0 ∧ cfg.windowSize % 4 = 0 ∧
     cfg.windowSize ≥ 4 * cfg.fifoDepthWords ∧
     cfg.fifoBase + cfg.fifoOffset + 16 * cfg.windowSize ≤ 2 ^ 32))) ∧
  (∀ s : State, configOk s.cfg = false → step s = .refused .configNotWellFormed) ∧
  (∀ (cfg : Config) (c c' : Nat), configOk cfg = true → c < c' → c' ≤ 15 →
    windowBase cfg c < windowBase cfg c + cfg.windowSize ∧
    windowBase cfg c + cfg.windowSize ≤ windowBase cfg c' ∧
    windowBase cfg c' + cfg.windowSize ≤ 2 ^ 32)

/-- R52 whole: for a channel up to 15 `FifoAddr` is `FIFO_BASE + FIFO_OFFSET + ch * WINDOW_SIZE`, below `2^32` and a multiple
of 4; above 15 the whole 8-bit value is compared, no address is computed and accepting the command halts with
`CHANNEL_RANGE`; channel 0 never halts. -/
def Obligations.AddressIsTheWindowBaseOrTheCommandHalts : Prop :=
  (∀ (cfg : Config) (ch : Nat), configOk cfg = true → ch ≤ 15 →
    ∃ a : Addr, fifoAddr cfg ch = some a ∧
      a.toNat = cfg.fifoBase + cfg.fifoOffset + ch * cfg.windowSize ∧ a.toNat % 4 = 0) ∧
  (∀ (cfg : Config) (ch : Nat), 15 < ch → fifoAddr cfg ch = none) ∧
  (∀ cfg : Config, fifoAddr cfg 0 = some (BitVec.ofNat 32 (cfg.fifoBase + cfg.fifoOffset))) ∧
  (∀ (s : State) (ch len : Nat), s.state = .idle → 15 < ch → ch < 2 ^ 8 → len < 2 ^ 32 →
    exec (.fwr ch len) s = .next { s with
      state := .halted, cause := .channelRange, info := encode (.fwr ch len)
      trace := s.trace ++ [.accept (encode (.fwr ch len)), .halt .channelRange] })

/-! ## The steps of the commands -/

/-- R55 whole, arm by arm: what the accept step of each command assigns, with everything else unchanged; the two halts, with
none of those assignments; no bus access and nothing taken from a stream. -/
def Obligations.AcceptStepLatchesOrHalts : Prop :=
  (∀ (s : State) (ch len : Nat), s.state = .idle → ch ≤ 15 → len < 2 ^ 32 →
    exec (.fwr ch len) s = .next { s with
      opreg := 0x1, chreg := BitVec.ofNat 8 ch, lenreg := BitVec.ofNat 32 len
      areg := BitVec.ofNat 32 (s.cfg.fifoBase + s.cfg.fifoOffset + ch * s.cfg.windowSize)
      nreg := BitVec.ofNat 32 ((len + 3) / 4), idx := 0, state := .busy
      trace := s.trace ++ [.accept (encode (.fwr ch len))] }) ∧
  (∀ (s : State) (ch len : Nat), s.state = .idle → 15 < ch → ch < 2 ^ 8 → len < 2 ^ 32 →
    exec (.fwr ch len) s = .next { s with
      state := .halted, cause := .channelRange, info := encode (.fwr ch len)
      trace := s.trace ++ [.accept (encode (.fwr ch len)), .halt .channelRange] }) ∧
  (∀ (s : State) (len : Nat), s.state = .idle → len < 2 ^ 32 →
    exec (.frd len) s = .next { s with
      opreg := 0x2, chreg := 0, lenreg := BitVec.ofNat 32 len
      areg := BitVec.ofNat 32 (s.cfg.fifoBase + s.cfg.fifoOffset)
      nreg := BitVec.ofNat 32 ((len + 3) / 4), idx := 0, state := .busy
      trace := s.trace ++ [.accept (encode (.frd len))] }) ∧
  (∀ (s : State) (len : Nat), s.state = .idle → len < 2 ^ 32 →
    exec (.frdw len) s = .next { s with
      opreg := 0x3, chreg := 0, lenreg := BitVec.ofNat 32 len
      areg := BitVec.ofNat 32 (s.cfg.fifoBase + s.cfg.fifoOffset)
      nreg := BitVec.ofNat 32 len, idx := 0, state := .busy
      trace := s.trace ++ [.accept (encode (.frdw len))] }) ∧
  (∀ (s : State) (d : Descriptor) (ds : List Descriptor) (why : Illegal),
    configOk s.cfg = true → BlocksTurn s → s.state = .idle → s.cmd = d :: ds → decode d = .illegal why →
    step s = .next { s with
      turns := s.turns.drop 1, cmd := ds, state := .halted, cause := .illegalCmd, info := d
      trace := s.trace ++ [.accept d, .halt .illegalCmd] })

/-- R61 whole: the `FWR` transfer step, with its frame (everything not named is unchanged). Its hypotheses are on the state
and the operands alone: the command is the one in progress, a group is left, the address is the channel's window base, the bus
is served and the source stream holds the group's bytes. -/
def Obligations.FwrTransferStep : Prop :=
  ∀ (s : State) (ch len : Nat), len < 2 ^ 32 → ch ≤ 15 → configOk s.cfg = true →
    s.state = .busy → s.opreg = 0x1 → s.chreg.toNat = ch → s.lenreg.toNat = len →
    s.areg.toNat = windowBase s.cfg ch → s.nreg.toNat = ngroups len → s.idx.toNat < ngroups len →
    s.busReady = true → min 4 (len - 4 * s.idx.toNat) ≤ s.src.length →
    let k := min 4 (len - 4 * s.idx.toNat)
    let bytes := s.src.take k
    let p := bytes ++ List.replicate (4 - k) (0x00 : Byte)
    let w := pack s.cfg.byteOrder (p.getD 0 0) (p.getD 1 0) (p.getD 2 0) (p.getD 3 0)
    1 ≤ k ∧ p.length = 4 ∧
    exec (.fwr ch len) s = .next { s with
      src := s.src.drop k, wreg := w, idx := s.idx + 1
      device := deviceWrite s.cfg s.device s.areg w
      trace := s.trace ++ [.srcTake bytes, .busWrite s.areg w] }

/-- R67 whole: the `FRD` transfer step, with its frame; the `4 - k` trailing bytes of the word are nowhere in the next state
but in `WREG`. -/
def Obligations.FrdTransferStep : Prop :=
  ∀ (s : State) (len : Nat), len < 2 ^ 32 → configOk s.cfg = true →
    s.state = .busy → s.opreg = 0x2 → s.lenreg.toNat = len →
    s.areg.toNat = windowBase s.cfg 0 → s.nreg.toNat = ngroups len → s.idx.toNat < ngroups len →
    s.busReady = true → s.byteSinkReady = true →
    let k := min 4 (len - 4 * s.idx.toNat)
    let r := deviceRead s.cfg s.device s.draws s.areg
    1 ≤ k ∧
    exec (.frd len) s = .next { s with
      wreg := r.word, idx := s.idx + 1, device := r.dev, draws := r.draws
      trace := s.trace ++ [.busRead s.areg r.word, .dstBytes ((unpack s.cfg.byteOrder r.word).take k)] }

/-- R71 whole: the `FRDW` transfer step, with its frame; the word is delivered as read, whatever the byte order. -/
def Obligations.FrdwTransferStep : Prop :=
  ∀ (s : State) (len : Nat), len < 2 ^ 32 → configOk s.cfg = true →
    s.state = .busy → s.opreg = 0x3 → s.lenreg.toNat = len →
    s.areg.toNat = windowBase s.cfg 0 → s.idx.toNat < s.nreg.toNat →
    s.busReady = true → s.wordSinkReady = true →
    let r := deviceRead s.cfg s.device s.draws s.areg
    exec (.frdw len) s = .next { s with
      wreg := r.word, idx := s.idx + 1, device := r.dev, draws := r.draws
      trace := s.trace ++ [.busRead s.areg r.word, .dstWord r.word] }

/-- R57 whole: the done step of each command, enabled in `BUSY` when `IDX = NREG`; for a command of length 0 it is the step
right after the accept step, so that the command makes no access at all. -/
def Obligations.DoneStepEndsTheCommand : Prop :=
  (∀ (s : State) (i : Instr), i.wellFormed = true → s.state = .busy → latched s = some i → s.idx = s.nreg →
    exec i s = .next { s with state := .idle, trace := s.trace ++ [.done] }) ∧
  (∀ (s : State) (i : Instr), s.state = .idle → (∃ ch, ch ≤ 15 ∧ i = .fwr ch 0) ∨ i = .frd 0 ∨ i = .frdw 0 →
    ∃ t u, exec i s = .next t ∧ exec i t = .next u ∧ u.state = .idle ∧
      u.trace = s.trace ++ [.accept (encode i), .done] ∧ u.device = s.device ∧ u.src = s.src)

/-- R95 and R96: a transfer step whose source bytes, bus or destination stream is not served is not enabled; the block waits in
`BUSY` and nothing changes. That a stalled step has not begun (no `SrcTake`, no `BusRead`) is the model's reading (log 7). -/
def Obligations.UnservedTransferWaits : Prop :=
  (∀ (s : State) (ch len : Nat), (Instr.fwr ch len).wellFormed = true → configOk s.cfg = true →
    s.state = .busy → latched s = some (.fwr ch len) → isWindowBase s.cfg s.areg = true → s.idx.toNat < s.nreg.toNat →
    (s.busReady = false ∨ s.src.length < gsize len s.idx.toNat) →
    exec (.fwr ch len) s = .next s) ∧
  (∀ (s : State) (len : Nat), (Instr.frd len).wellFormed = true → configOk s.cfg = true →
    s.state = .busy → latched s = some (.frd len) → isWindowBase s.cfg s.areg = true → s.idx.toNat < s.nreg.toNat →
    (s.busReady = false ∨ s.byteSinkReady = false) →
    exec (.frd len) s = .next s) ∧
  (∀ (s : State) (len : Nat), (Instr.frdw len).wellFormed = true → configOk s.cfg = true →
    s.state = .busy → latched s = some (.frdw len) → isWindowBase s.cfg s.areg = true → s.idx.toNat < s.nreg.toNat →
    (s.busReady = false ∨ s.wordSinkReady = false) →
    exec (.frdw len) s = .next s)

/-- D10 with R42: a command term whose operand fits no descriptor is refused at the boundary, never truncated. The
refusal's name, and that it comes first in every state, are the model's choice (log 13). -/
def Obligations.OperandBeyondItsFieldIsRefused : Prop :=
  ∀ (i : Instr) (s : State), i.wellFormed = false → exec i s = .refused .operandOutOfRange

/-- Which command a step runs: on the block's turn, in `IDLE` the oldest held descriptor's (R19, R55), in `BUSY` the latched
one (R56, R57); with none held in `IDLE` the block does nothing (R58); in `HALTED` no step is enabled (R79). What the step adds
is dropping the turn and taking the descriptor off the port. The list of turns, and `exec` as one step of a command, are the
model's choice (logs 6, 12). -/
def Obligations.StepRunsThePresentedOrLatchedCommand : Prop :=
  (∀ (s : State) (d : Descriptor) (ds : List Descriptor) (i : Instr),
    configOk s.cfg = true → BlocksTurn s → s.state = .idle → s.cmd = d :: ds → decode d = .cmd i →
    step s = exec i { s with turns := s.turns.drop 1, cmd := ds }) ∧
  (∀ (s : State) (i : Instr), configOk s.cfg = true → BlocksTurn s → s.state = .busy → latched s = some i →
    step s = exec i { s with turns := s.turns.drop 1 }) ∧
  (∀ s : State, configOk s.cfg = true → BlocksTurn s → s.state = .idle → s.cmd = [] →
    step s = .next { s with turns := s.turns.drop 1 }) ∧
  (∀ s : State, configOk s.cfg = true → BlocksTurn s → s.state = .halted →
    step s = .fault (.halted s.cause))

/-! ## The halt -/

/-- R75, with S8: over commands whose fields fit, accepting halts the block exactly for `FWR` with a channel above 15, for
every length, zero included; `FRD` and `FRDW` never halt. -/
def Obligations.OnlyABadChannelHaltsACommand : Prop :=
  ∀ (i : Instr) (s : State), i.wellFormed = true → s.state = .idle →
    ∃ t, exec i s = .next t ∧
      (t.state = .halted ↔ ∃ ch len, i = .fwr ch len ∧ 15 < ch) ∧
      (t.state = .halted → t.cause = .channelRange ∧ t.info = encode i)

/-- R77 and R78: a step that enters `HALTED` takes one descriptor, whose acceptance raises the cause recorded, records it and
emits exactly `Accept(d), Halt(cause)`; nothing else changes, so that no access has been made and no byte taken. -/
def Obligations.HaltIsPreciseAndEarly : Prop :=
  ∀ s t : State, step s = .next t → s.state ≠ .halted → t.state = .halted →
    ∃ (d : Descriptor) (ds : List Descriptor) (c : Cause),
      s.state = .idle ∧ s.cmd = d :: ds ∧ c = acceptCause d ∧ c ≠ .none ∧
      t = { s with
        turns := s.turns.drop 1, cmd := ds, state := .halted, cause := c, info := d
        trace := s.trace ++ [.accept d, .halt c] }

/-- R79: in `HALTED` the block's turn is a fault; every move of another agent but reset leaves `STATE`, `CAUSE`, `INFO`, the
registers and the history as they are and takes no descriptor; reset leaves `HALTED`. -/
def Obligations.HaltedUntilReset : Prop :=
  ∀ s : State, configOk s.cfg = true → s.state = .halted →
    (BlocksTurn s → step s = .fault (.halted s.cause)) ∧
    (∀ (u : Turn) (ts : List Turn), s.turns = u :: ts → u ≠ .block → u ≠ .reset →
      ∃ t, step s = .next t ∧
        t.state = .halted ∧ t.cause = s.cause ∧ t.info = s.info ∧ t.trace = s.trace ∧
        t.opreg = s.opreg ∧ t.chreg = s.chreg ∧ t.lenreg = s.lenreg ∧ t.areg = s.areg ∧ t.nreg = s.nreg ∧
        t.idx = s.idx ∧ t.wreg = s.wreg ∧ s.cmd <+: t.cmd ∧ s.src <+: t.src) ∧
    (∀ ts : List Turn, s.turns = .reset :: ts → ∃ t, step s = .next t ∧ t.state = .idle)

/-- R81 whole: an `FWR` descriptor with `RSV != 0` and `CH > 15` reports `ILLEGAL_CMD`; reset wins over everything: on its
turn no descriptor is accepted and no halt is raised. -/
def Obligations.IllegalCommandBeatsChannelRange : Prop :=
  (∀ (s : State) (d : Descriptor) (ds : List Descriptor),
    configOk s.cfg = true → BlocksTurn s → s.state = .idle → s.cmd = d :: ds →
    opField d = 0x1 → rsvField d ≠ 0 → 15 < (chField d).toNat →
    ∃ t, step s = .next t ∧ t.state = .halted ∧ t.cause = .illegalCmd ∧ t.info = d ∧
      t.trace = s.trace ++ [.accept d, .halt .illegalCmd]) ∧
  (∀ (s : State) (ts : List Turn), configOk s.cfg = true → s.turns = .reset :: ts →
    ∃ t, step s = .next t ∧ t.state = .idle ∧ t.cause = .none ∧ t.trace = s.trace ++ [.reset])

/-! ## Reset and the other agents -/

/-- R87 whole: reset leaves `STATE = IDLE`, `CAUSE = 0`, `INFO = 0` from every state, emits `Reset`, makes no bus access, and
does nothing to the FIFO device; it is the only way out of `HALTED`; the block never resets itself. -/
def Obligations.ResetLeavesTheBlockIdle : Prop :=
  (∀ (s : State) (ts : List Turn), configOk s.cfg = true → s.turns = .reset :: ts →
    ∃ t, step s = .next t ∧
      t.state = .idle ∧ t.cause = .none ∧ t.info = 0 ∧ t.trace = s.trace ++ [.reset] ∧
      t.cfg = s.cfg ∧ t.device = s.device ∧ t.turns = ts) ∧
  (∀ s t : State, step s = .next t → s.state = .halted → t.state ≠ .halted → s.turns.head? = some .reset) ∧
  (∀ (s t : State) (es : List Event), step s = .next t → t.trace = s.trace ++ es → .reset ∈ es →
    s.turns.head? = some .reset)

/-- R88 whole: reset between two steps abandons the command: it takes no further step and emits no `Done`, however long the
block runs on with no other input; the events it already made stand; a held descriptor is dropped. -/
def Obligations.AbandonedCommandNeverResumes : Prop :=
  ∀ (s : State) (n : Nat), configOk s.cfg = true → s.turns = [.reset] →
    ∃ t, run (n + 1) s = .next t ∧ t.state = .idle ∧ t.trace = s.trace ++ [.reset] ∧ t.device = s.device ∧ t.cmd = []

/-- R89: after reset the first descriptor presented is accepted by the ordinary accept step, with nothing in between. -/
def Obligations.FirstDescriptorAfterResetIsAccepted : Prop :=
  ∀ (s : State) (d : Descriptor), configOk s.cfg = true → s.turns = [.reset, .present d] →
    ∃ t, run 3 s = .next t ∧
      t.cause = acceptCause d ∧
      (acceptCause d = .none → t.state = .busy ∧ t.trace = s.trace ++ [.reset, .accept d]) ∧
      (acceptCause d ≠ .none → t.state = .halted ∧ t.trace = s.trace ++ [.reset, .accept d, .halt (acceptCause d)])

/-- R93 and R20: an access of another agent, and a change of the device by itself, touch the device (and the model's draw
counter) and nothing of the block: no register, no port, no event. A read in another window than the read channel's changes
nothing at all, and neither does a write to the oracle. The turns, the form of the device, and what a read in window 0 does to it
(`deviceRead`: in `LOOPBACK(c)` it pops at the base alone) are the model's choice (logs 6, 8). -/
def Obligations.OtherAgentsTouchOnlyTheDevice : Prop :=
  ∀ (s : State) (ts : List Turn), configOk s.cfg = true →
    (∀ a w, s.turns = .otherWrite a w :: ts →
      step s = .next { s with turns := ts, device := deviceWrite s.cfg s.device a w }) ∧
    (∀ a, s.turns = .otherRead a :: ts → inWindow s.cfg 0 a = true →
      step s = .next { s with
        turns := ts
        device := (deviceRead s.cfg s.device s.draws a).dev
        draws := (deviceRead s.cfg s.device s.draws a).draws }) ∧
    (∀ a, s.turns = .otherRead a :: ts → inWindow s.cfg 0 a = false → step s = .next { s with turns := ts }) ∧
    (∀ a w answers, s.turns = .otherWrite a w :: ts → s.device = .oracle answers → step s = .next { s with turns := ts }) ∧
    (∀ dev, s.turns = .deviceChange dev :: ts → step s = .next { s with turns := ts, device := dev })

/-- R38: `LOOPBACK(c)`: a write at `WindowBase(c)` appends while there is room, a write elsewhere does nothing, a read at
`WindowBase(0)` of a nonempty queue pops. That a read outside window 0 leaves the queue alone is no clause of R38: it is the
model's reading of the last sentence of R93 (DEDUCED, log 8); the like clause for a write outside window `c` follows from R38. -/
def Obligations.LoopbackQueuesAndPops : Prop :=
  ∀ (cfg : Config) (c : Fin 16) (q : List Word) (a : Addr) (w : Word) (draws : Nat),
    (a.toNat = windowBase cfg c.val → q.length < cfg.fifoDepthWords →
      deviceWrite cfg (.loopback c q) a w = .loopback c (q ++ [w])) ∧
    (a.toNat ≠ windowBase cfg c.val → deviceWrite cfg (.loopback c q) a w = .loopback c q) ∧
    (a.toNat = windowBase cfg 0 →
      deviceRead cfg (.loopback c (w :: q)) draws a = ⟨w, .loopback c q, draws⟩) ∧
    (configOk cfg = true → inWindow cfg c.val a = false → deviceWrite cfg (.loopback c q) a w = .loopback c q) ∧
    (configOk cfg = true → inWindow cfg 0 a = false → (deviceRead cfg (.loopback c q) draws a).dev = .loopback c q)

/-- R19: outside `IDLE` no step but reset takes a descriptor off the command port, and none is lost: those held stay, in
order, and no `Accept` is emitted. -/
def Obligations.DescriptorsAreHeldUnlessIdle : Prop :=
  ∀ s t : State, step s = .next t → s.state ≠ .idle → s.turns.head? ≠ some .reset →
    s.cmd <+: t.cmd ∧ ∃ es, t.trace = s.trace ++ es ∧ ∀ d, .accept d ∉ es

/-- `exec` in `BUSY` of a command that is not the one in progress changes nothing. This is the model's choice (log 12: `exec` is
the one step of a command that is due), in the sense of R19's one command in progress. -/
def Obligations.CommandNotInProgressIsHeld : Prop :=
  ∀ (s : State) (i : Instr), i.wellFormed = true → s.state = .busy → latched s ≠ some i → exec i s = .next s

/-! ## Invariants and rules of the whole machine -/

/-- The state right after reset meets the invariant, for every well-formed configuration, and so does `State.reset`; its
`STATE`, `CAUSE` and `INFO` are those of R21. The other fields of the reset state are the model's choice (logs 1, 3 to 9) and
nothing is said of them. -/
def Obligations.ResetMeetsTheInvariant : Prop :=
  (∀ cfg : Config, configOk cfg = true →
    Inv (State.resetWith cfg) ∧
    (State.resetWith cfg).state = .idle ∧ (State.resetWith cfg).cause = .none ∧ (State.resetWith cfg).info = 0) ∧
  Inv State.reset

/-- Every step, of the block or of another agent, keeps the invariant. -/
def Obligations.EveryStepKeepsTheInvariant : Prop :=
  ∀ s t : State, Inv s → step s = .next t → Inv t

/-- From a state that meets the invariant no step is refused, and a step faults exactly when the block is given a turn in
`HALTED`; so the block never puts an address outside the windows on the bus (U5). The fault and the refusals are the model's (logs 12, 13). -/
def Obligations.InvariantStatesAreNeverRefused : Prop :=
  ∀ s : State, Inv s →
    (∀ r, step s ≠ .refused r) ∧
    ((∃ f, step s = .fault f) ↔ (BlocksTurn s ∧ s.state = .halted))

/-- R15: the status port shows the codes of `STATE` and `CAUSE` and the whole `INFO`; in a state that meets the invariant
`CAUSE != 0` exactly when `STATE = HALTED`, and `INFO = 0` when `CAUSE = 0`. -/
def Obligations.StatusPortTellsTheHalt : Prop :=
  ∀ s : State,
    ((statusPort s).stateBits = 0b00 ↔ s.state = .idle) ∧
    ((statusPort s).stateBits = 0b01 ↔ s.state = .busy) ∧
    ((statusPort s).stateBits = 0b10 ↔ s.state = .halted) ∧
    ((statusPort s).causeBits = 0 ↔ s.cause = .none) ∧
    ((statusPort s).causeBits = 1 ↔ s.cause = .channelRange) ∧
    ((statusPort s).causeBits = 2 ↔ s.cause = .illegalCmd) ∧
    (statusPort s).infoBits = s.info ∧
    (Inv s →
      ((statusPort s).causeBits ≠ 0 ↔ (statusPort s).stateBits = 0b10) ∧
      ((statusPort s).causeBits = 0 → (statusPort s).infoBits = 0))

/-- R11 whole: the codes of `STATE`, and the only ways it changes: `IDLE` to `BUSY` by an accept step, `BUSY` to `IDLE` by the
done step, `IDLE` to `HALTED` by a halt in an accept step, any value to `IDLE` by reset; none from `BUSY` to `HALTED`. -/
def Obligations.StateChangesOnlyByAcceptDoneHaltReset : Prop :=
  (stateCode .idle = 0b00 ∧ stateCode .busy = 0b01 ∧ stateCode .halted = 0b10) ∧
  (∀ s t : State, step s = .next t → s.state ≠ t.state →
    (s.state = .idle ∧ t.state = .busy ∧ ∃ d, t.trace = s.trace ++ [.accept d]) ∨
    (s.state = .busy ∧ t.state = .idle ∧ t.trace = s.trace ++ [.done]) ∨
    (s.state = .idle ∧ t.state = .halted ∧ ∃ d c, t.trace = s.trace ++ [.accept d, .halt c]) ∨
    (t.state = .idle ∧ s.turns.head? = some .reset ∧ t.trace = s.trace ++ [.reset]))

/-- R58, R32 and R34: the events one step can add, and when. Each step adds the events of one accept, transfer or done step, of
a halt or of reset, or none; a transfer step makes exactly one bus access, with its stream event on the right side of it, and
moves `IDX` on by one. -/
def Obligations.EachStepAddsTheEventsOfOneStep : Prop :=
  ∀ s t : State, step s = .next t →
    t.trace = s.trace ∨
    (s.state = .idle ∧ ∃ d ds, s.cmd = d :: ds ∧
      (t.trace = s.trace ++ [.accept d] ∨ ∃ c, t.trace = s.trace ++ [.accept d, .halt c])) ∨
    (s.state = .busy ∧ t.state = .busy ∧ s.idx.toNat < s.nreg.toNat ∧ t.idx.toNat = s.idx.toNat + 1 ∧
      t.nreg = s.nreg ∧ t.areg = s.areg ∧ t.lenreg = s.lenreg ∧
      ((s.opreg = 0x1 ∧ ∃ b w, s.src = b ++ t.src ∧ t.trace = s.trace ++ [.srcTake b, .busWrite s.areg w]) ∨
       (s.opreg = 0x2 ∧ t.src = s.src ∧ ∃ w b, t.trace = s.trace ++ [.busRead s.areg w, .dstBytes b]) ∨
       (s.opreg = 0x3 ∧ t.src = s.src ∧ ∃ w, t.trace = s.trace ++ [.busRead s.areg w, .dstWord w]))) ∨
    (s.state = .busy ∧ t.state = .idle ∧ s.idx = s.nreg ∧ t.trace = s.trace ++ [.done]) ∨
    (s.turns.head? = some .reset ∧ t.trace = s.trace ++ [.reset])

/-- R26 whole, with R29: every word access is at `AREG = WindowBase(CHREG)`, the base of the channel's window, a multiple of
4, and the address does not advance; a read is at `WindowBase(0)`. -/
def Obligations.EveryAccessIsAtTheLatchedWindow : Prop :=
  ∀ (s t : State) (es : List Event), Inv s → step s = .next t → t.trace = s.trace ++ es →
    (∀ a w, (.busWrite a w ∈ es ∨ .busRead a w ∈ es) →
      a = s.areg ∧ a.toNat = windowBase s.cfg s.chreg.toNat ∧ s.chreg.toNat ≤ 15 ∧ a.toNat % 4 = 0 ∧
      t.areg = s.areg ∧ t.chreg = s.chreg) ∧
    (∀ a w, .busRead a w ∈ es → a.toNat = s.cfg.fifoBase + s.cfg.fifoOffset)

/-- R22, R10: no step of any agent changes the configuration. -/
def Obligations.ConfigurationNeverChanges : Prop :=
  ∀ (n : Nat) (s t : State), run n s = .next t → t.cfg = s.cfg

/-- R36: whether and how the block steps does not depend on the answers of the environment: with another device in its place
the same step is made, to a state with the same configuration, control registers, ports, status and schedule, and with the same
events but for the words answered and the bytes copied out of them (the kinds, the bus addresses, what is written and how many
bytes are delivered agree). -/
def Obligations.StepDoesNotDependOnTheAnswers : Prop :=
  ∀ (s t : State) (dev : Device) (n : Nat), step s = .next t →
    ∃ u, step { s with device := dev, draws := n } = .next u ∧
      u.cfg = t.cfg ∧ u.state = t.state ∧ u.cause = t.cause ∧ u.info = t.info ∧ u.opreg = t.opreg ∧ u.chreg = t.chreg ∧
      u.lenreg = t.lenreg ∧ u.areg = t.areg ∧ u.nreg = t.nreg ∧ u.idx = t.idx ∧
      u.cmd = t.cmd ∧ u.cmdHalf = t.cmdHalf ∧ u.src = t.src ∧ u.busReady = t.busReady ∧
      u.byteSinkReady = t.byteSinkReady ∧ u.wordSinkReady = t.wordSinkReady ∧ u.turns = t.turns ∧
      u.trace.map Event.withoutAnswer = t.trace.map Event.withoutAnswer

/-- R21, R13 and R17: registers the spec leaves unspecified are never observed. Two states that differ only in `WREG`, and
outside `BUSY` in the latched command and `IDX`, make the same runs: the same stops, and next states that again differ only
so, with the same events, status and ports. In particular nothing is carried from one command to the next. -/
def Obligations.UnspecifiedRegistersAreUnobservable : Prop :=
  ∀ (n : Nat) (s t : State), SameButUnspecified s t → ResultsAgree (run n s) (run n t)

/-! ## Whole commands -/

/-- R62 whole: `FWR`, from its descriptor at the port of the idle block to `Done`, with no other agent moving and the buffer on
the source stream: exactly the group and word events, in order, all at the channel's window; then `IDLE` with `CAUSE = 0`. -/
def Obligations.FwrWritesTheBuffer : Prop :=
  ∀ (s : State) (ch : Nat) (b extra : List Byte) (rest : List Descriptor),
    configOk s.cfg = true → s.turns = [] → s.state = .idle → s.cause = .none → s.busReady = true →
    ch ≤ 15 → b.length < 2 ^ 32 → s.cmd = encode (.fwr ch b.length) :: rest → s.src = b ++ extra →
    ∃ t, run (ngroups b.length + 2) s = .next t ∧
      t.trace = s.trace ++ (.accept (encode (.fwr ch b.length)) ::
        (fwrEvents s.cfg.byteOrder (BitVec.ofNat 32 (windowBase s.cfg ch)) b ++ [.done])) ∧
      t.state = .idle ∧ t.cause = .none ∧ t.src = extra ∧ t.cmd = rest ∧ t.cfg = s.cfg ∧ t.draws = s.draws

/-- R93 with R62, and 95_test_vectors.md section 2.8: the events of an `FWR` are the same however the moves of other agents fall
between its steps (their accesses to any window, changes of the device, other descriptors presented, more bytes supplied), as
long as the block gets its turns, is not reset, and the bus goes on being served. -/
def Obligations.OtherAgentsDoNotChangeAWritesEvents : Prop :=
  ∀ (s : State) (ch : Nat) (b extra : List Byte) (rest : List Descriptor),
    configOk s.cfg = true → s.state = .idle → s.busReady = true →
    ch ≤ 15 → b.length < 2 ^ 32 → s.cmd = encode (.fwr ch b.length) :: rest → s.src = b ++ extra →
    (∀ u ∈ s.turns, u ≠ .reset ∧ u ≠ .setBusReady false) → s.turns.count .block = ngroups b.length + 2 →
    ∃ t, run s.turns.length s = .next t ∧ t.turns = [] ∧ t.state = .idle ∧
      t.trace = s.trace ++ (.accept (encode (.fwr ch b.length)) ::
        (fwrEvents s.cfg.byteOrder (BitVec.ofNat 32 (windowBase s.cfg ch)) b ++ [.done]))

/-- R68 whole: `FRD L`, when the environment answers its `ngroups(L)` reads with `ws`: exactly the reads at `WindowBase(0)`
and the leading bytes of each word, in order; the bytes delivered are the first `L` of the words' bytes; then `IDLE` with
`CAUSE = 0`. -/
def Obligations.FrdDeliversTheLeadingBytes : Prop :=
  ∀ (s : State) (len : Nat) (ws : List Word) (rest : List Descriptor),
    configOk s.cfg = true → s.turns = [] → s.state = .idle → s.cause = .none →
    s.busReady = true → s.byteSinkReady = true →
    len < 2 ^ 32 → s.cmd = encode (.frd len) :: rest →
    answersOf s.cfg s.device s.draws (BitVec.ofNat 32 (windowBase s.cfg 0)) (ngroups len) = ws →
    ∃ t, run (ngroups len + 2) s = .next t ∧
      t.trace = s.trace ++ (.accept (encode (.frd len)) ::
        (frdEvents s.cfg.byteOrder (BitVec.ofNat 32 (windowBase s.cfg 0)) len ws ++ [.done])) ∧
      deliveredBytes (frdEvents s.cfg.byteOrder (BitVec.ofNat 32 (windowBase s.cfg 0)) len ws) =
        (ws.flatMap (unpack s.cfg.byteOrder)).take len ∧
      (busAccesses (frdEvents s.cfg.byteOrder (BitVec.ofNat 32 (windowBase s.cfg 0)) len ws)).length = ngroups len ∧
      t.state = .idle ∧ t.cause = .none ∧ t.src = s.src ∧ t.cmd = rest ∧ t.cfg = s.cfg

/-- R72 whole: `FRDW n`, when the environment answers its reads with `ws`: exactly `n` reads at `WindowBase(0)`, each word
delivered unchanged, in order; then `IDLE` with `CAUSE = 0`; `n = 0` makes no access; no depth is checked (`n` is any length
below `2^32`); a nonzero `CH` halts with `ILLEGAL_CMD`. -/
def Obligations.FrdwDeliversTheWords : Prop :=
  (∀ (s : State) (n : Nat) (ws : List Word) (rest : List Descriptor),
    configOk s.cfg = true → s.turns = [] → s.state = .idle → s.cause = .none →
    s.busReady = true → s.wordSinkReady = true →
    n < 2 ^ 32 → s.cmd = encode (.frdw n) :: rest →
    answersOf s.cfg s.device s.draws (BitVec.ofNat 32 (windowBase s.cfg 0)) n = ws →
    ∃ t, run (n + 2) s = .next t ∧
      t.trace = s.trace ++ (.accept (encode (.frdw n)) ::
        (frdwEvents (BitVec.ofNat 32 (windowBase s.cfg 0)) ws ++ [.done])) ∧
      ws.length = n ∧
      deliveredWords (frdwEvents (BitVec.ofNat 32 (windowBase s.cfg 0)) ws) = ws ∧
      t.state = .idle ∧ t.cause = .none ∧ t.src = s.src ∧ t.cmd = rest ∧ t.cfg = s.cfg) ∧
  (∀ (s : State) (d : Descriptor) (rest : List Descriptor),
    configOk s.cfg = true → s.turns = [] → s.state = .idle → s.cmd = d :: rest → opField d = 0x3 → chField d ≠ 0 →
    ∃ t, step s = .next t ∧ t.state = .halted ∧ t.cause = .illegalCmd ∧
      t.trace = s.trace ++ [.accept d, .halt .illegalCmd])

/-- The last sentence of R93, for the reads: accesses of other agents to other channels' windows do not disturb an `FRD` or an
`FRDW`. However such accesses, further descriptors and bytes, and services of the ports fall between the command's steps, it
makes the events it makes alone, with the same answers. In the test environment `LOOPBACK(c)`, where writes at channel `c` feed
the reads, writes in `Window(c)` are left out too (log 8). -/
def Obligations.OtherWindowsDoNotDisturbARead : Prop :=
  (∀ (s : State) (len : Nat) (rest : List Descriptor),
    configOk s.cfg = true → s.state = .idle → s.busReady = true → s.byteSinkReady = true →
    len < 2 ^ 32 → s.cmd = encode (.frd len) :: rest →
    (∀ u ∈ s.turns, LeavesReadsAlone s.cfg s.device u) → s.turns.count .block = ngroups len + 2 →
    ∃ t, run s.turns.length s = .next t ∧ t.turns = [] ∧ t.state = .idle ∧
      t.trace = s.trace ++ (.accept (encode (.frd len)) ::
        (frdEvents s.cfg.byteOrder (BitVec.ofNat 32 (windowBase s.cfg 0)) len
          (answersOf s.cfg s.device s.draws (BitVec.ofNat 32 (windowBase s.cfg 0)) (ngroups len)) ++ [.done]))) ∧
  (∀ (s : State) (n : Nat) (rest : List Descriptor),
    configOk s.cfg = true → s.state = .idle → s.busReady = true → s.wordSinkReady = true →
    n < 2 ^ 32 → s.cmd = encode (.frdw n) :: rest →
    (∀ u ∈ s.turns, LeavesReadsAlone s.cfg s.device u) → s.turns.count .block = n + 2 →
    ∃ t, run s.turns.length s = .next t ∧ t.turns = [] ∧ t.state = .idle ∧
      t.trace = s.trace ++ (.accept (encode (.frdw n)) ::
        (frdwEvents (BitVec.ofNat 32 (windowBase s.cfg 0))
          (answersOf s.cfg s.device s.draws (BitVec.ofNat 32 (windowBase s.cfg 0)) n) ++ [.done])))

/-- R73 whole: for every `L`, `FRD L` and `FRDW ngroups(L)`, from states that differ only in the descriptor presented, make
the same bus accesses with the same answers, and the bytes `FRD` delivers are the words `FRDW` delivers viewed as bytes and
cut to `L`. -/
def Obligations.FrdAndFrdwAgreeOnTheBus : Prop :=
  ∀ (s : State) (len : Nat) (rest : List Descriptor),
    configOk s.cfg = true → s.turns = [] → s.state = .idle →
    s.busReady = true → s.byteSinkReady = true → s.wordSinkReady = true → len < 2 ^ 32 →
    ∃ t u es fs,
      run (ngroups len + 2) { s with cmd := encode (.frd len) :: rest } = .next t ∧
      run (ngroups len + 2) { s with cmd := encode (.frdw (ngroups len)) :: rest } = .next u ∧
      t.trace = s.trace ++ es ∧ u.trace = s.trace ++ fs ∧
      es.getLast? = some .done ∧ fs.getLast? = some .done ∧
      busAccesses es = busAccesses fs ∧
      deliveredBytes es = ((deliveredWords fs).flatMap (unpack s.cfg.byteOrder)).take len ∧
      t.device = u.device ∧ t.draws = u.draws

/-- R65 whole, over runs: from states that differ only in the descriptors presented, `FWR ch, x` then `FWR ch, y` against
`FWR ch, x ++ y`, each run to its last `Done`. The first makes `ngroups(len x) + ngroups(len y)` accesses, those of the words of
`x` and then of `y`, so that no tail is carried over; the second `ngroups(len x + len y)`. When `len x` is a multiple of 4 they
are the same; when it is not, the tail of `x` is padded and pushed on its own. The rule's example, where they differ. -/
def Obligations.SplitWritesAgreeAtMultiplesOfFour : Prop :=
  ∀ (s : State) (ch : Nat) (x y : List Byte),
    configOk s.cfg = true → s.turns = [] → s.state = .idle → s.busReady = true → ch ≤ 15 →
    x.length + y.length < 2 ^ 32 → s.src = x ++ y →
    ∃ t u es fs,
      run (ngroups x.length + 2 + (ngroups y.length + 2))
        { s with cmd := [encode (.fwr ch x.length), encode (.fwr ch y.length)] } = .next t ∧
      run (ngroups (x.length + y.length) + 2) { s with cmd := [encode (.fwr ch (x.length + y.length))] } = .next u ∧
      t.state = .idle ∧ u.state = .idle ∧ t.trace = s.trace ++ es ∧ u.trace = s.trace ++ fs ∧
      es.getLast? = some .done ∧ fs.getLast? = some .done ∧
      (let a : Addr := BitVec.ofNat 32 (windowBase s.cfg ch)
       let o := s.cfg.byteOrder
       (busAccesses es).length = (x.length + 3) / 4 + (y.length + 3) / 4 ∧
       (busAccesses fs).length = (x.length + y.length + 3) / 4 ∧
       busAccesses es =
         (List.range (ngroups x.length)).map (fun g => .write a (groupWord o (group x g))) ++
         (List.range (ngroups y.length)).map (fun g => .write a (groupWord o (group y g))) ∧
       (x.length % 4 = 0 → busAccesses es = busAccesses fs) ∧
       (x.length % 4 ≠ 0 →
         let p := x.drop (4 * (x.length / 4)) ++ List.replicate (4 - x.length % 4) (0x00 : Byte)
         (busAccesses es)[x.length / 4]? =
           some (.write a (pack o (p.getD 0 0) (p.getD 1 0) (p.getD 2 0) (p.getD 3 0)))) ∧
       (x = [0xAA] → y = [0xBB] → o = .le →
         busAccesses es = [.write a 0x000000AA, .write a 0x000000BB] ∧ busAccesses fs = [.write a 0x0000BBAA]))

/-- R39 whole, the round-trip law: under `LOOPBACK(c)` with an empty queue, `FWR` of a buffer of length `L` up to
`4 * FIFO_DEPTH_WORDS` (0 included) followed by `FRD L` delivers exactly the buffer and leaves the queue empty; followed by
`FRDW ngroups(L)` it delivers words whose bytes, cut to `L`, are the buffer. For either byte order. -/
def Obligations.LoopbackRoundTripReproducesTheBuffer : Prop :=
  ∀ (s : State) (c : Fin 16) (b : List Byte),
    configOk s.cfg = true → s.turns = [] → s.state = .idle →
    s.busReady = true → s.byteSinkReady = true → s.wordSinkReady = true →
    s.device = .loopback c [] → s.src = b →
    b.length ≤ 4 * s.cfg.fifoDepthWords →
    (∃ t es,
      run (ngroups b.length + 2 + (ngroups b.length + 2))
        { s with cmd := [encode (.fwr c.val b.length), encode (.frd b.length)] } = .next t ∧
      t.state = .idle ∧ t.trace = s.trace ++ es ∧ es.getLast? = some .done ∧
      deliveredBytes es = b ∧ t.device = .loopback c []) ∧
    (∃ t es,
      run (ngroups b.length + 2 + (ngroups b.length + 2))
        { s with cmd := [encode (.fwr c.val b.length), encode (.frdw (ngroups b.length))] } = .next t ∧
      t.state = .idle ∧ t.trace = s.trace ++ es ∧ es.getLast? = some .done ∧
      ((deliveredWords es).flatMap (unpack s.cfg.byteOrder)).take b.length = b)

/-! ## Waiting and fairness -/

/-- R95 and R96: a command whose transfer step is not served waits in `BUSY` for ever: however long the block runs on with no
other agent moving, there is no timeout, no retry, no event and no change. That the stalled step has not begun is the model's
reading (log 7). -/
def Obligations.UnservedCommandWaitsForEver : Prop :=
  ∀ (s : State) (i : Instr) (n : Nat),
    configOk s.cfg = true → s.turns = [] → s.state = .busy → latched s = some i → isWindowBase s.cfg s.areg = true →
    s.idx.toNat < s.nreg.toNat →
    (match i with
      | .fwr _ len => s.busReady = false ∨ s.src.length < gsize len s.idx.toNat
      | .frd _ => s.busReady = false ∨ s.byteSinkReady = false
      | .frdw _ => s.busReady = false ∨ s.wordSinkReady = false) →
    run n s = .next s

/-- The last two sentences of R96, with U15: every command ends under weak fairness and nothing more. In an endless execution of
all agents without reset, from a state that meets the invariant, in which a transfer step due for ever is served on some turn of
the block, and an accept or done step due for ever is given a turn: a command in progress comes to its `Done`, and a descriptor
held in `IDLE` is accepted, after which the command it names comes to its `Done` or the block is halted. That "due for ever" is
where the fairness of R96 begins is the model's reading (log 16). -/
def Obligations.EveryCommandEndsUnderWeakFairness : Prop :=
  ∀ (σ : Nat → State) (u : Nat → Turn),
    IsExecution σ u → Fair σ u → (∀ n, u n ≠ .reset) → Inv (σ 0) →
    (∀ n, (σ n).state = .busy →
      ∃ m, n ≤ m ∧ (∀ k, n ≤ k → k ≤ m → (σ k).state = .busy) ∧
        (σ (m + 1)).state = .idle ∧ (σ (m + 1)).trace = (σ m).trace ++ [.done]) ∧
    (∀ n d ds, (σ n).state = .idle → (σ n).cmd = d :: ds →
      ∃ m, n ≤ m ∧ (∀ k, n ≤ k → k ≤ m → (σ k).state = .idle ∧ (σ k).trace = (σ n).trace) ∧
        (acceptCause d = .none →
          (σ (m + 1)).trace = (σ m).trace ++ [.accept d] ∧
          ∃ j, m < j ∧ (∀ k, m < k → k ≤ j → (σ k).state = .busy) ∧
            (σ (j + 1)).state = .idle ∧ (σ (j + 1)).trace = (σ j).trace ++ [.done]) ∧
        (acceptCause d ≠ .none →
          (σ (m + 1)).state = .halted ∧ (σ (m + 1)).trace = (σ m).trace ++ [.accept d, .halt (acceptCause d)]))
end

