-- ==== Sys2Proof/Laws/State.lean ====
section
/-! SUPPORT. What each named update of the state does to each field: one lemma per field per update. -/

namespace Sys2Proof.Machine

@[simp] theorem emit_cfg (es : List Event) (s : State) : (emit es s).cfg = s.cfg := rfl
@[simp] theorem emit_state (es : List Event) (s : State) : (emit es s).state = s.state := rfl
@[simp] theorem emit_cause (es : List Event) (s : State) : (emit es s).cause = s.cause := rfl
@[simp] theorem emit_info (es : List Event) (s : State) : (emit es s).info = s.info := rfl
@[simp] theorem emit_opreg (es : List Event) (s : State) : (emit es s).opreg = s.opreg := rfl
@[simp] theorem emit_chreg (es : List Event) (s : State) : (emit es s).chreg = s.chreg := rfl
@[simp] theorem emit_lenreg (es : List Event) (s : State) : (emit es s).lenreg = s.lenreg := rfl
@[simp] theorem emit_areg (es : List Event) (s : State) : (emit es s).areg = s.areg := rfl
@[simp] theorem emit_nreg (es : List Event) (s : State) : (emit es s).nreg = s.nreg := rfl
@[simp] theorem emit_idx (es : List Event) (s : State) : (emit es s).idx = s.idx := rfl
@[simp] theorem emit_wreg (es : List Event) (s : State) : (emit es s).wreg = s.wreg := rfl
@[simp] theorem emit_cmd (es : List Event) (s : State) : (emit es s).cmd = s.cmd := rfl
@[simp] theorem emit_cmdHalf (es : List Event) (s : State) : (emit es s).cmdHalf = s.cmdHalf := rfl
@[simp] theorem emit_src (es : List Event) (s : State) : (emit es s).src = s.src := rfl
@[simp] theorem emit_busReady (es : List Event) (s : State) : (emit es s).busReady = s.busReady := rfl
@[simp] theorem emit_byteSinkReady (es : List Event) (s : State) : (emit es s).byteSinkReady = s.byteSinkReady := rfl
@[simp] theorem emit_wordSinkReady (es : List Event) (s : State) : (emit es s).wordSinkReady = s.wordSinkReady := rfl
@[simp] theorem emit_device (es : List Event) (s : State) : (emit es s).device = s.device := rfl
@[simp] theorem emit_draws (es : List Event) (s : State) : (emit es s).draws = s.draws := rfl
@[simp] theorem emit_trace (es : List Event) (s : State) : (emit es s).trace = s.trace ++ es := rfl
@[simp] theorem emit_turns (es : List Event) (s : State) : (emit es s).turns = s.turns := rfl

@[simp] theorem takeDescriptor_cfg (s : State) : (takeDescriptor s).cfg = s.cfg := rfl
@[simp] theorem takeDescriptor_state (s : State) : (takeDescriptor s).state = s.state := rfl
@[simp] theorem takeDescriptor_cause (s : State) : (takeDescriptor s).cause = s.cause := rfl
@[simp] theorem takeDescriptor_info (s : State) : (takeDescriptor s).info = s.info := rfl
@[simp] theorem takeDescriptor_opreg (s : State) : (takeDescriptor s).opreg = s.opreg := rfl
@[simp] theorem takeDescriptor_chreg (s : State) : (takeDescriptor s).chreg = s.chreg := rfl
@[simp] theorem takeDescriptor_lenreg (s : State) : (takeDescriptor s).lenreg = s.lenreg := rfl
@[simp] theorem takeDescriptor_areg (s : State) : (takeDescriptor s).areg = s.areg := rfl
@[simp] theorem takeDescriptor_nreg (s : State) : (takeDescriptor s).nreg = s.nreg := rfl
@[simp] theorem takeDescriptor_idx (s : State) : (takeDescriptor s).idx = s.idx := rfl
@[simp] theorem takeDescriptor_wreg (s : State) : (takeDescriptor s).wreg = s.wreg := rfl
@[simp] theorem takeDescriptor_cmd (s : State) : (takeDescriptor s).cmd = s.cmd.drop 1 := rfl
@[simp] theorem takeDescriptor_cmdHalf (s : State) : (takeDescriptor s).cmdHalf = s.cmdHalf := rfl
@[simp] theorem takeDescriptor_src (s : State) : (takeDescriptor s).src = s.src := rfl
@[simp] theorem takeDescriptor_busReady (s : State) : (takeDescriptor s).busReady = s.busReady := rfl
@[simp] theorem takeDescriptor_byteSinkReady (s : State) : (takeDescriptor s).byteSinkReady = s.byteSinkReady := rfl
@[simp] theorem takeDescriptor_wordSinkReady (s : State) : (takeDescriptor s).wordSinkReady = s.wordSinkReady := rfl
@[simp] theorem takeDescriptor_device (s : State) : (takeDescriptor s).device = s.device := rfl
@[simp] theorem takeDescriptor_draws (s : State) : (takeDescriptor s).draws = s.draws := rfl
@[simp] theorem takeDescriptor_trace (s : State) : (takeDescriptor s).trace = s.trace := rfl
@[simp] theorem takeDescriptor_turns (s : State) : (takeDescriptor s).turns = s.turns := rfl

@[simp] theorem takeSource_cfg (k : Nat) (s : State) : (takeSource k s).cfg = s.cfg := rfl
@[simp] theorem takeSource_state (k : Nat) (s : State) : (takeSource k s).state = s.state := rfl
@[simp] theorem takeSource_cause (k : Nat) (s : State) : (takeSource k s).cause = s.cause := rfl
@[simp] theorem takeSource_info (k : Nat) (s : State) : (takeSource k s).info = s.info := rfl
@[simp] theorem takeSource_opreg (k : Nat) (s : State) : (takeSource k s).opreg = s.opreg := rfl
@[simp] theorem takeSource_chreg (k : Nat) (s : State) : (takeSource k s).chreg = s.chreg := rfl
@[simp] theorem takeSource_lenreg (k : Nat) (s : State) : (takeSource k s).lenreg = s.lenreg := rfl
@[simp] theorem takeSource_areg (k : Nat) (s : State) : (takeSource k s).areg = s.areg := rfl
@[simp] theorem takeSource_nreg (k : Nat) (s : State) : (takeSource k s).nreg = s.nreg := rfl
@[simp] theorem takeSource_idx (k : Nat) (s : State) : (takeSource k s).idx = s.idx := rfl
@[simp] theorem takeSource_wreg (k : Nat) (s : State) : (takeSource k s).wreg = s.wreg := rfl
@[simp] theorem takeSource_cmd (k : Nat) (s : State) : (takeSource k s).cmd = s.cmd := rfl
@[simp] theorem takeSource_cmdHalf (k : Nat) (s : State) : (takeSource k s).cmdHalf = s.cmdHalf := rfl
@[simp] theorem takeSource_src (k : Nat) (s : State) : (takeSource k s).src = s.src.drop k := rfl
@[simp] theorem takeSource_busReady (k : Nat) (s : State) : (takeSource k s).busReady = s.busReady := rfl
@[simp] theorem takeSource_byteSinkReady (k : Nat) (s : State) : (takeSource k s).byteSinkReady = s.byteSinkReady := rfl
@[simp] theorem takeSource_wordSinkReady (k : Nat) (s : State) : (takeSource k s).wordSinkReady = s.wordSinkReady := rfl
@[simp] theorem takeSource_device (k : Nat) (s : State) : (takeSource k s).device = s.device := rfl
@[simp] theorem takeSource_draws (k : Nat) (s : State) : (takeSource k s).draws = s.draws := rfl
@[simp] theorem takeSource_trace (k : Nat) (s : State) : (takeSource k s).trace = s.trace ++ [.srcTake (s.src.take k)] := rfl
@[simp] theorem takeSource_turns (k : Nat) (s : State) : (takeSource k s).turns = s.turns := rfl

@[simp] theorem portWrite_cfg (a : Addr) (w : Word) (s : State) : (portWrite a w s).cfg = s.cfg := rfl
@[simp] theorem portWrite_state (a : Addr) (w : Word) (s : State) : (portWrite a w s).state = s.state := rfl
@[simp] theorem portWrite_cause (a : Addr) (w : Word) (s : State) : (portWrite a w s).cause = s.cause := rfl
@[simp] theorem portWrite_info (a : Addr) (w : Word) (s : State) : (portWrite a w s).info = s.info := rfl
@[simp] theorem portWrite_opreg (a : Addr) (w : Word) (s : State) : (portWrite a w s).opreg = s.opreg := rfl
@[simp] theorem portWrite_chreg (a : Addr) (w : Word) (s : State) : (portWrite a w s).chreg = s.chreg := rfl
@[simp] theorem portWrite_lenreg (a : Addr) (w : Word) (s : State) : (portWrite a w s).lenreg = s.lenreg := rfl
@[simp] theorem portWrite_areg (a : Addr) (w : Word) (s : State) : (portWrite a w s).areg = s.areg := rfl
@[simp] theorem portWrite_nreg (a : Addr) (w : Word) (s : State) : (portWrite a w s).nreg = s.nreg := rfl
@[simp] theorem portWrite_idx (a : Addr) (w : Word) (s : State) : (portWrite a w s).idx = s.idx := rfl
@[simp] theorem portWrite_wreg (a : Addr) (w : Word) (s : State) : (portWrite a w s).wreg = s.wreg := rfl
@[simp] theorem portWrite_cmd (a : Addr) (w : Word) (s : State) : (portWrite a w s).cmd = s.cmd := rfl
@[simp] theorem portWrite_cmdHalf (a : Addr) (w : Word) (s : State) : (portWrite a w s).cmdHalf = s.cmdHalf := rfl
@[simp] theorem portWrite_src (a : Addr) (w : Word) (s : State) : (portWrite a w s).src = s.src := rfl
@[simp] theorem portWrite_busReady (a : Addr) (w : Word) (s : State) : (portWrite a w s).busReady = s.busReady := rfl
@[simp] theorem portWrite_byteSinkReady (a : Addr) (w : Word) (s : State) : (portWrite a w s).byteSinkReady = s.byteSinkReady := rfl
@[simp] theorem portWrite_wordSinkReady (a : Addr) (w : Word) (s : State) : (portWrite a w s).wordSinkReady = s.wordSinkReady := rfl
@[simp] theorem portWrite_device (a : Addr) (w : Word) (s : State) : (portWrite a w s).device = deviceWrite s.cfg s.device a w := rfl
@[simp] theorem portWrite_draws (a : Addr) (w : Word) (s : State) : (portWrite a w s).draws = s.draws := rfl
@[simp] theorem portWrite_trace (a : Addr) (w : Word) (s : State) : (portWrite a w s).trace = s.trace ++ [.busWrite a w] := rfl
@[simp] theorem portWrite_turns (a : Addr) (w : Word) (s : State) : (portWrite a w s).turns = s.turns := rfl

@[simp] theorem portRead_cfg (a : Addr) (s : State) : (portRead a s).cfg = s.cfg := rfl
@[simp] theorem portRead_state (a : Addr) (s : State) : (portRead a s).state = s.state := rfl
@[simp] theorem portRead_cause (a : Addr) (s : State) : (portRead a s).cause = s.cause := rfl
@[simp] theorem portRead_info (a : Addr) (s : State) : (portRead a s).info = s.info := rfl
@[simp] theorem portRead_opreg (a : Addr) (s : State) : (portRead a s).opreg = s.opreg := rfl
@[simp] theorem portRead_chreg (a : Addr) (s : State) : (portRead a s).chreg = s.chreg := rfl
@[simp] theorem portRead_lenreg (a : Addr) (s : State) : (portRead a s).lenreg = s.lenreg := rfl
@[simp] theorem portRead_areg (a : Addr) (s : State) : (portRead a s).areg = s.areg := rfl
@[simp] theorem portRead_nreg (a : Addr) (s : State) : (portRead a s).nreg = s.nreg := rfl
@[simp] theorem portRead_idx (a : Addr) (s : State) : (portRead a s).idx = s.idx := rfl
@[simp] theorem portRead_wreg (a : Addr) (s : State) : (portRead a s).wreg = s.wreg := rfl
@[simp] theorem portRead_cmd (a : Addr) (s : State) : (portRead a s).cmd = s.cmd := rfl
@[simp] theorem portRead_cmdHalf (a : Addr) (s : State) : (portRead a s).cmdHalf = s.cmdHalf := rfl
@[simp] theorem portRead_src (a : Addr) (s : State) : (portRead a s).src = s.src := rfl
@[simp] theorem portRead_busReady (a : Addr) (s : State) : (portRead a s).busReady = s.busReady := rfl
@[simp] theorem portRead_byteSinkReady (a : Addr) (s : State) : (portRead a s).byteSinkReady = s.byteSinkReady := rfl
@[simp] theorem portRead_wordSinkReady (a : Addr) (s : State) : (portRead a s).wordSinkReady = s.wordSinkReady := rfl
@[simp] theorem portRead_device (a : Addr) (s : State) : (portRead a s).device = (deviceRead s.cfg s.device s.draws a).dev := rfl
@[simp] theorem portRead_draws (a : Addr) (s : State) : (portRead a s).draws = (deviceRead s.cfg s.device s.draws a).draws := rfl
@[simp] theorem portRead_trace (a : Addr) (s : State) : (portRead a s).trace = s.trace ++ [.busRead a (portReadWord a s)] := rfl
@[simp] theorem portRead_turns (a : Addr) (s : State) : (portRead a s).turns = s.turns := rfl

@[simp] theorem advance_cfg (w : Word) (s : State) : (advance w s).cfg = s.cfg := rfl
@[simp] theorem advance_state (w : Word) (s : State) : (advance w s).state = s.state := rfl
@[simp] theorem advance_cause (w : Word) (s : State) : (advance w s).cause = s.cause := rfl
@[simp] theorem advance_info (w : Word) (s : State) : (advance w s).info = s.info := rfl
@[simp] theorem advance_opreg (w : Word) (s : State) : (advance w s).opreg = s.opreg := rfl
@[simp] theorem advance_chreg (w : Word) (s : State) : (advance w s).chreg = s.chreg := rfl
@[simp] theorem advance_lenreg (w : Word) (s : State) : (advance w s).lenreg = s.lenreg := rfl
@[simp] theorem advance_areg (w : Word) (s : State) : (advance w s).areg = s.areg := rfl
@[simp] theorem advance_nreg (w : Word) (s : State) : (advance w s).nreg = s.nreg := rfl
@[simp] theorem advance_idx (w : Word) (s : State) : (advance w s).idx = s.idx + 1 := rfl
@[simp] theorem advance_wreg (w : Word) (s : State) : (advance w s).wreg = w := rfl
@[simp] theorem advance_cmd (w : Word) (s : State) : (advance w s).cmd = s.cmd := rfl
@[simp] theorem advance_cmdHalf (w : Word) (s : State) : (advance w s).cmdHalf = s.cmdHalf := rfl
@[simp] theorem advance_src (w : Word) (s : State) : (advance w s).src = s.src := rfl
@[simp] theorem advance_busReady (w : Word) (s : State) : (advance w s).busReady = s.busReady := rfl
@[simp] theorem advance_byteSinkReady (w : Word) (s : State) : (advance w s).byteSinkReady = s.byteSinkReady := rfl
@[simp] theorem advance_wordSinkReady (w : Word) (s : State) : (advance w s).wordSinkReady = s.wordSinkReady := rfl
@[simp] theorem advance_device (w : Word) (s : State) : (advance w s).device = s.device := rfl
@[simp] theorem advance_draws (w : Word) (s : State) : (advance w s).draws = s.draws := rfl
@[simp] theorem advance_trace (w : Word) (s : State) : (advance w s).trace = s.trace := rfl
@[simp] theorem advance_turns (w : Word) (s : State) : (advance w s).turns = s.turns := rfl

@[simp] theorem raiseHalt_cfg (c : Cause) (d : Descriptor) (s : State) : (raiseHalt c d s).cfg = s.cfg := rfl
@[simp] theorem raiseHalt_state (c : Cause) (d : Descriptor) (s : State) : (raiseHalt c d s).state = .halted := rfl
@[simp] theorem raiseHalt_cause (c : Cause) (d : Descriptor) (s : State) : (raiseHalt c d s).cause = c := rfl
@[simp] theorem raiseHalt_info (c : Cause) (d : Descriptor) (s : State) : (raiseHalt c d s).info = d := rfl
@[simp] theorem raiseHalt_opreg (c : Cause) (d : Descriptor) (s : State) : (raiseHalt c d s).opreg = s.opreg := rfl
@[simp] theorem raiseHalt_chreg (c : Cause) (d : Descriptor) (s : State) : (raiseHalt c d s).chreg = s.chreg := rfl
@[simp] theorem raiseHalt_lenreg (c : Cause) (d : Descriptor) (s : State) : (raiseHalt c d s).lenreg = s.lenreg := rfl
@[simp] theorem raiseHalt_areg (c : Cause) (d : Descriptor) (s : State) : (raiseHalt c d s).areg = s.areg := rfl
@[simp] theorem raiseHalt_nreg (c : Cause) (d : Descriptor) (s : State) : (raiseHalt c d s).nreg = s.nreg := rfl
@[simp] theorem raiseHalt_idx (c : Cause) (d : Descriptor) (s : State) : (raiseHalt c d s).idx = s.idx := rfl
@[simp] theorem raiseHalt_wreg (c : Cause) (d : Descriptor) (s : State) : (raiseHalt c d s).wreg = s.wreg := rfl
@[simp] theorem raiseHalt_cmd (c : Cause) (d : Descriptor) (s : State) : (raiseHalt c d s).cmd = s.cmd := rfl
@[simp] theorem raiseHalt_cmdHalf (c : Cause) (d : Descriptor) (s : State) : (raiseHalt c d s).cmdHalf = s.cmdHalf := rfl
@[simp] theorem raiseHalt_src (c : Cause) (d : Descriptor) (s : State) : (raiseHalt c d s).src = s.src := rfl
@[simp] theorem raiseHalt_busReady (c : Cause) (d : Descriptor) (s : State) : (raiseHalt c d s).busReady = s.busReady := rfl
@[simp] theorem raiseHalt_byteSinkReady (c : Cause) (d : Descriptor) (s : State) : (raiseHalt c d s).byteSinkReady = s.byteSinkReady := rfl
@[simp] theorem raiseHalt_wordSinkReady (c : Cause) (d : Descriptor) (s : State) : (raiseHalt c d s).wordSinkReady = s.wordSinkReady := rfl
@[simp] theorem raiseHalt_device (c : Cause) (d : Descriptor) (s : State) : (raiseHalt c d s).device = s.device := rfl
@[simp] theorem raiseHalt_draws (c : Cause) (d : Descriptor) (s : State) : (raiseHalt c d s).draws = s.draws := rfl
@[simp] theorem raiseHalt_trace (c : Cause) (d : Descriptor) (s : State) : (raiseHalt c d s).trace = s.trace ++ [.halt c] := rfl
@[simp] theorem raiseHalt_turns (c : Cause) (d : Descriptor) (s : State) : (raiseHalt c d s).turns = s.turns := rfl

@[simp] theorem latchCommand_cfg (op : BitVec 4) (ch len n : Nat) (a : Addr) (s : State) : (latchCommand op ch len n a s).cfg = s.cfg := rfl
@[simp] theorem latchCommand_state (op : BitVec 4) (ch len n : Nat) (a : Addr) (s : State) : (latchCommand op ch len n a s).state = .busy := rfl
@[simp] theorem latchCommand_cause (op : BitVec 4) (ch len n : Nat) (a : Addr) (s : State) : (latchCommand op ch len n a s).cause = s.cause := rfl
@[simp] theorem latchCommand_info (op : BitVec 4) (ch len n : Nat) (a : Addr) (s : State) : (latchCommand op ch len n a s).info = s.info := rfl
@[simp] theorem latchCommand_opreg (op : BitVec 4) (ch len n : Nat) (a : Addr) (s : State) : (latchCommand op ch len n a s).opreg = op := rfl
@[simp] theorem latchCommand_chreg (op : BitVec 4) (ch len n : Nat) (a : Addr) (s : State) : (latchCommand op ch len n a s).chreg = BitVec.ofNat 8 ch := rfl
@[simp] theorem latchCommand_lenreg (op : BitVec 4) (ch len n : Nat) (a : Addr) (s : State) : (latchCommand op ch len n a s).lenreg = BitVec.ofNat 32 len := rfl
@[simp] theorem latchCommand_areg (op : BitVec 4) (ch len n : Nat) (a : Addr) (s : State) : (latchCommand op ch len n a s).areg = a := rfl
@[simp] theorem latchCommand_nreg (op : BitVec 4) (ch len n : Nat) (a : Addr) (s : State) : (latchCommand op ch len n a s).nreg = BitVec.ofNat 32 n := rfl
@[simp] theorem latchCommand_idx (op : BitVec 4) (ch len n : Nat) (a : Addr) (s : State) : (latchCommand op ch len n a s).idx = 0 := rfl
@[simp] theorem latchCommand_wreg (op : BitVec 4) (ch len n : Nat) (a : Addr) (s : State) : (latchCommand op ch len n a s).wreg = s.wreg := rfl
@[simp] theorem latchCommand_cmd (op : BitVec 4) (ch len n : Nat) (a : Addr) (s : State) : (latchCommand op ch len n a s).cmd = s.cmd := rfl
@[simp] theorem latchCommand_cmdHalf (op : BitVec 4) (ch len n : Nat) (a : Addr) (s : State) : (latchCommand op ch len n a s).cmdHalf = s.cmdHalf := rfl
@[simp] theorem latchCommand_src (op : BitVec 4) (ch len n : Nat) (a : Addr) (s : State) : (latchCommand op ch len n a s).src = s.src := rfl
@[simp] theorem latchCommand_busReady (op : BitVec 4) (ch len n : Nat) (a : Addr) (s : State) : (latchCommand op ch len n a s).busReady = s.busReady := rfl
@[simp] theorem latchCommand_byteSinkReady (op : BitVec 4) (ch len n : Nat) (a : Addr) (s : State) : (latchCommand op ch len n a s).byteSinkReady = s.byteSinkReady := rfl
@[simp] theorem latchCommand_wordSinkReady (op : BitVec 4) (ch len n : Nat) (a : Addr) (s : State) : (latchCommand op ch len n a s).wordSinkReady = s.wordSinkReady := rfl
@[simp] theorem latchCommand_device (op : BitVec 4) (ch len n : Nat) (a : Addr) (s : State) : (latchCommand op ch len n a s).device = s.device := rfl
@[simp] theorem latchCommand_draws (op : BitVec 4) (ch len n : Nat) (a : Addr) (s : State) : (latchCommand op ch len n a s).draws = s.draws := rfl
@[simp] theorem latchCommand_trace (op : BitVec 4) (ch len n : Nat) (a : Addr) (s : State) : (latchCommand op ch len n a s).trace = s.trace := rfl
@[simp] theorem latchCommand_turns (op : BitVec 4) (ch len n : Nat) (a : Addr) (s : State) : (latchCommand op ch len n a s).turns = s.turns := rfl

@[simp] theorem finishCommand_cfg (s : State) : (finishCommand s).cfg = s.cfg := rfl
@[simp] theorem finishCommand_state (s : State) : (finishCommand s).state = .idle := rfl
@[simp] theorem finishCommand_cause (s : State) : (finishCommand s).cause = s.cause := rfl
@[simp] theorem finishCommand_info (s : State) : (finishCommand s).info = s.info := rfl
@[simp] theorem finishCommand_opreg (s : State) : (finishCommand s).opreg = s.opreg := rfl
@[simp] theorem finishCommand_chreg (s : State) : (finishCommand s).chreg = s.chreg := rfl
@[simp] theorem finishCommand_lenreg (s : State) : (finishCommand s).lenreg = s.lenreg := rfl
@[simp] theorem finishCommand_areg (s : State) : (finishCommand s).areg = s.areg := rfl
@[simp] theorem finishCommand_nreg (s : State) : (finishCommand s).nreg = s.nreg := rfl
@[simp] theorem finishCommand_idx (s : State) : (finishCommand s).idx = s.idx := rfl
@[simp] theorem finishCommand_wreg (s : State) : (finishCommand s).wreg = s.wreg := rfl
@[simp] theorem finishCommand_cmd (s : State) : (finishCommand s).cmd = s.cmd := rfl
@[simp] theorem finishCommand_cmdHalf (s : State) : (finishCommand s).cmdHalf = s.cmdHalf := rfl
@[simp] theorem finishCommand_src (s : State) : (finishCommand s).src = s.src := rfl
@[simp] theorem finishCommand_busReady (s : State) : (finishCommand s).busReady = s.busReady := rfl
@[simp] theorem finishCommand_byteSinkReady (s : State) : (finishCommand s).byteSinkReady = s.byteSinkReady := rfl
@[simp] theorem finishCommand_wordSinkReady (s : State) : (finishCommand s).wordSinkReady = s.wordSinkReady := rfl
@[simp] theorem finishCommand_device (s : State) : (finishCommand s).device = s.device := rfl
@[simp] theorem finishCommand_draws (s : State) : (finishCommand s).draws = s.draws := rfl
@[simp] theorem finishCommand_trace (s : State) : (finishCommand s).trace = s.trace ++ [.done] := rfl
@[simp] theorem finishCommand_turns (s : State) : (finishCommand s).turns = s.turns := rfl

@[simp] theorem dropTurn_cfg (s : State) : (dropTurn s).cfg = s.cfg := rfl
@[simp] theorem dropTurn_state (s : State) : (dropTurn s).state = s.state := rfl
@[simp] theorem dropTurn_cause (s : State) : (dropTurn s).cause = s.cause := rfl
@[simp] theorem dropTurn_info (s : State) : (dropTurn s).info = s.info := rfl
@[simp] theorem dropTurn_opreg (s : State) : (dropTurn s).opreg = s.opreg := rfl
@[simp] theorem dropTurn_chreg (s : State) : (dropTurn s).chreg = s.chreg := rfl
@[simp] theorem dropTurn_lenreg (s : State) : (dropTurn s).lenreg = s.lenreg := rfl
@[simp] theorem dropTurn_areg (s : State) : (dropTurn s).areg = s.areg := rfl
@[simp] theorem dropTurn_nreg (s : State) : (dropTurn s).nreg = s.nreg := rfl
@[simp] theorem dropTurn_idx (s : State) : (dropTurn s).idx = s.idx := rfl
@[simp] theorem dropTurn_wreg (s : State) : (dropTurn s).wreg = s.wreg := rfl
@[simp] theorem dropTurn_cmd (s : State) : (dropTurn s).cmd = s.cmd := rfl
@[simp] theorem dropTurn_cmdHalf (s : State) : (dropTurn s).cmdHalf = s.cmdHalf := rfl
@[simp] theorem dropTurn_src (s : State) : (dropTurn s).src = s.src := rfl
@[simp] theorem dropTurn_busReady (s : State) : (dropTurn s).busReady = s.busReady := rfl
@[simp] theorem dropTurn_byteSinkReady (s : State) : (dropTurn s).byteSinkReady = s.byteSinkReady := rfl
@[simp] theorem dropTurn_wordSinkReady (s : State) : (dropTurn s).wordSinkReady = s.wordSinkReady := rfl
@[simp] theorem dropTurn_device (s : State) : (dropTurn s).device = s.device := rfl
@[simp] theorem dropTurn_draws (s : State) : (dropTurn s).draws = s.draws := rfl
@[simp] theorem dropTurn_trace (s : State) : (dropTurn s).trace = s.trace := rfl
@[simp] theorem dropTurn_turns (s : State) : (dropTurn s).turns = s.turns.drop 1 := rfl

@[simp] theorem otherAgentReads_cfg (a : Addr) (s : State) : (otherAgentReads a s).cfg = s.cfg := rfl
@[simp] theorem otherAgentReads_state (a : Addr) (s : State) : (otherAgentReads a s).state = s.state := rfl
@[simp] theorem otherAgentReads_cause (a : Addr) (s : State) : (otherAgentReads a s).cause = s.cause := rfl
@[simp] theorem otherAgentReads_info (a : Addr) (s : State) : (otherAgentReads a s).info = s.info := rfl
@[simp] theorem otherAgentReads_opreg (a : Addr) (s : State) : (otherAgentReads a s).opreg = s.opreg := rfl
@[simp] theorem otherAgentReads_chreg (a : Addr) (s : State) : (otherAgentReads a s).chreg = s.chreg := rfl
@[simp] theorem otherAgentReads_lenreg (a : Addr) (s : State) : (otherAgentReads a s).lenreg = s.lenreg := rfl
@[simp] theorem otherAgentReads_areg (a : Addr) (s : State) : (otherAgentReads a s).areg = s.areg := rfl
@[simp] theorem otherAgentReads_nreg (a : Addr) (s : State) : (otherAgentReads a s).nreg = s.nreg := rfl
@[simp] theorem otherAgentReads_idx (a : Addr) (s : State) : (otherAgentReads a s).idx = s.idx := rfl
@[simp] theorem otherAgentReads_wreg (a : Addr) (s : State) : (otherAgentReads a s).wreg = s.wreg := rfl
@[simp] theorem otherAgentReads_cmd (a : Addr) (s : State) : (otherAgentReads a s).cmd = s.cmd := rfl
@[simp] theorem otherAgentReads_cmdHalf (a : Addr) (s : State) : (otherAgentReads a s).cmdHalf = s.cmdHalf := rfl
@[simp] theorem otherAgentReads_src (a : Addr) (s : State) : (otherAgentReads a s).src = s.src := rfl
@[simp] theorem otherAgentReads_busReady (a : Addr) (s : State) : (otherAgentReads a s).busReady = s.busReady := rfl
@[simp] theorem otherAgentReads_byteSinkReady (a : Addr) (s : State) : (otherAgentReads a s).byteSinkReady = s.byteSinkReady := rfl
@[simp] theorem otherAgentReads_wordSinkReady (a : Addr) (s : State) : (otherAgentReads a s).wordSinkReady = s.wordSinkReady := rfl
@[simp] theorem otherAgentReads_device (a : Addr) (s : State) : (otherAgentReads a s).device = (deviceRead s.cfg s.device s.draws a).dev := rfl
@[simp] theorem otherAgentReads_turns (a : Addr) (s : State) : (otherAgentReads a s).turns = s.turns := rfl
@[simp] theorem otherAgentReads_trace (a : Addr) (s : State) : (otherAgentReads a s).trace = s.trace := rfl

@[simp] theorem resetBlock_cfg (s : State) : (resetBlock s).cfg = s.cfg := rfl
@[simp] theorem resetBlock_state (s : State) : (resetBlock s).state = .idle := rfl
@[simp] theorem resetBlock_cause (s : State) : (resetBlock s).cause = .none := rfl
@[simp] theorem resetBlock_info (s : State) : (resetBlock s).info = 0 := rfl
@[simp] theorem resetBlock_opreg (s : State) : (resetBlock s).opreg = 0 := rfl
@[simp] theorem resetBlock_chreg (s : State) : (resetBlock s).chreg = 0 := rfl
@[simp] theorem resetBlock_lenreg (s : State) : (resetBlock s).lenreg = 0 := rfl
@[simp] theorem resetBlock_areg (s : State) : (resetBlock s).areg = 0 := rfl
@[simp] theorem resetBlock_nreg (s : State) : (resetBlock s).nreg = 0 := rfl
@[simp] theorem resetBlock_idx (s : State) : (resetBlock s).idx = 0 := rfl
@[simp] theorem resetBlock_wreg (s : State) : (resetBlock s).wreg = 0 := rfl
@[simp] theorem resetBlock_cmd (s : State) : (resetBlock s).cmd = [] := rfl
@[simp] theorem resetBlock_cmdHalf (s : State) : (resetBlock s).cmdHalf = Option.none := rfl
@[simp] theorem resetBlock_src (s : State) : (resetBlock s).src = [] := rfl
@[simp] theorem resetBlock_busReady (s : State) : (resetBlock s).busReady = s.busReady := rfl
@[simp] theorem resetBlock_byteSinkReady (s : State) : (resetBlock s).byteSinkReady = s.byteSinkReady := rfl
@[simp] theorem resetBlock_wordSinkReady (s : State) : (resetBlock s).wordSinkReady = s.wordSinkReady := rfl
@[simp] theorem resetBlock_device (s : State) : (resetBlock s).device = s.device := rfl
@[simp] theorem resetBlock_draws (s : State) : (resetBlock s).draws = s.draws := rfl
@[simp] theorem resetBlock_trace (s : State) : (resetBlock s).trace = s.trace ++ [.reset] := rfl
@[simp] theorem resetBlock_turns (s : State) : (resetBlock s).turns = s.turns := rfl

end Sys2Proof.Machine
end

