-- ==== Sys2Proof/Laws/Ops.lean ====
section
/-! SUPPORT. One lemma per shared operation that says what it can do, for proofs to cite instead of unfolding it. -/

namespace Sys2Proof.Machine

/-! ## Fields of a descriptor as numbers (R41) -/

theorem opField_toNat (d : Descriptor) : (opField d).toNat = d.toNat / 2 ^ 60 := by
  simp only [opField, BitVec.extractLsb'_toNat, Nat.shiftRight_eq_div_pow]
  have := d.isLt
  omega

theorem rsvField_toNat (d : Descriptor) : (rsvField d).toNat = d.toNat / 2 ^ 40 % 2 ^ 20 := by
  simp only [rsvField, BitVec.extractLsb'_toNat, Nat.shiftRight_eq_div_pow]

theorem chField_toNat (d : Descriptor) : (chField d).toNat = d.toNat / 2 ^ 32 % 2 ^ 8 := by
  simp only [chField, BitVec.extractLsb'_toNat, Nat.shiftRight_eq_div_pow]

theorem lenField_toNat (d : Descriptor) : (lenField d).toNat = d.toNat % 2 ^ 32 := by
  simp [lenField, BitVec.extractLsb'_toNat]

/-! ## The address computation (R7, R24, R52) -/

theorem configOk_iff (cfg : Config) :
    configOk cfg = true ↔
      0 < cfg.fifoDepthWords ∧
      (cfg.fifoBase + cfg.fifoOffset) % 4 = 0 ∧ cfg.windowSize % 4 = 0 ∧
      4 * cfg.fifoDepthWords ≤ cfg.windowSize ∧
      cfg.fifoBase + cfg.fifoOffset + 16 * cfg.windowSize ≤ 2 ^ 32 := by
  simp [configOk, and_assoc]

theorem fifoAddr_of_le {cfg : Config} {ch : Nat} (h : ch ≤ 15) :
    fifoAddr cfg ch = some (BitVec.ofNat 32 (windowBase cfg ch)) := by
  simp [fifoAddr, Nat.not_lt.mpr h]

theorem fifoAddr_of_gt {cfg : Config} {ch : Nat} (h : 15 < ch) : fifoAddr cfg ch = none := by
  simp [fifoAddr, h]

theorem windowBase_lt {cfg : Config} {ch : Nat} (hc : configOk cfg = true) (h : ch ≤ 15) :
    windowBase cfg ch < 2 ^ 32 := by
  obtain ⟨h0, -, -, h3, h4⟩ := (configOk_iff cfg).mp hc
  have : ch * cfg.windowSize ≤ 15 * cfg.windowSize := Nat.mul_le_mul_right _ h
  simp only [windowBase]
  omega

theorem windowAddr_toNat {cfg : Config} {ch : Nat} (hc : configOk cfg = true) (h : ch ≤ 15) :
    (BitVec.ofNat 32 (windowBase cfg ch)).toNat = windowBase cfg ch := by
  simpa using Nat.mod_eq_of_lt (windowBase_lt hc h)

theorem windowBase_mod_four {cfg : Config} (hc : configOk cfg = true) (ch : Nat) : windowBase cfg ch % 4 = 0 := by
  obtain ⟨-, h1, h2, -, -⟩ := (configOk_iff cfg).mp hc
  have : ch * cfg.windowSize % 4 = 0 := by simp [Nat.mul_mod, h2]
  simp only [windowBase]
  omega

theorem isWindowBase_iff (cfg : Config) (a : Addr) :
    isWindowBase cfg a = true ↔ ∃ ch, ch ≤ 15 ∧ a.toNat = windowBase cfg ch := by
  simp only [isWindowBase, List.any_eq_true, List.mem_range, beq_iff_eq]
  constructor
  · rintro ⟨c, h, e⟩; exact ⟨c, Nat.le_of_lt_succ h, e⟩
  · rintro ⟨c, h, e⟩; exact ⟨c, Nat.lt_succ_of_le h, e⟩

theorem windowBase_inWindow {cfg : Config} (hc : configOk cfg = true) {ch : Nat} {a : Addr}
    (ha : a.toNat = windowBase cfg ch) : inWindow cfg ch a = true := by
  obtain ⟨h0, -, -, h3, -⟩ := (configOk_iff cfg).mp hc
  simp [inWindow, ha]
  omega

/-! ## Words and bytes (R28, R67) -/

@[simp] theorem unpack_length (o : ByteOrder) (w : Word) : (unpack o w).length = 4 := by cases o <;> rfl

/-- How many bytes a read step delivers does not depend on the word read. -/
@[simp] theorem leadingBytes_length (o : ByteOrder) (k : Nat) (w : Word) : (leadingBytes o k w).length = min k 4 := by
  simp [leadingBytes]

/-! ## Events without the words answered (R36) -/

@[simp] theorem withoutAnswer_busRead (a : Addr) (w : Word) : (Event.busRead a w).withoutAnswer = .busRead a 0 := rfl
@[simp] theorem withoutAnswer_dstBytes (b : List Byte) :
    (Event.dstBytes b).withoutAnswer = .dstBytes (List.replicate b.length 0) := rfl
@[simp] theorem withoutAnswer_dstWord (w : Word) : (Event.dstWord w).withoutAnswer = .dstWord 0 := rfl
@[simp] theorem withoutAnswer_accept (d : Descriptor) : (Event.accept d).withoutAnswer = .accept d := rfl
@[simp] theorem withoutAnswer_srcTake (b : List Byte) : (Event.srcTake b).withoutAnswer = .srcTake b := rfl
@[simp] theorem withoutAnswer_busWrite (a : Addr) (w : Word) : (Event.busWrite a w).withoutAnswer = .busWrite a w := rfl
@[simp] theorem withoutAnswer_done : Event.done.withoutAnswer = .done := rfl
@[simp] theorem withoutAnswer_halt (c : Cause) : (Event.halt c).withoutAnswer = .halt c := rfl
@[simp] theorem withoutAnswer_reset : Event.reset.withoutAnswer = .reset := rfl

/-! ## The device (R36, R38, R93) -/

@[simp] theorem deviceWrite_oracle (cfg : Config) (answers : List Word) (a : Addr) (w : Word) :
    deviceWrite cfg (.oracle answers) a w = .oracle answers := rfl

/-- A read in another window than the read channel's leaves the device as it was. -/
theorem deviceRead_outside {cfg : Config} {dev : Device} {draws : Nat} {a : Addr} (hc : configOk cfg = true)
    (h : inWindow cfg readChannel a = false) : (deviceRead cfg dev draws a).dev = dev := by
  have hb : a.toNat ≠ windowBase cfg readChannel := fun e => by simp [windowBase_inWindow hc e] at h
  cases dev with
  | oracle ws => cases ws <;> simp [deviceRead, h]
  | loopback c q => simp [deviceRead, hb]

/-- The oracle's next answer goes to the next read in `Window(0)`. -/
theorem deviceRead_oracle_inside {cfg : Config} {w : Word} {ws : List Word} {draws : Nat} {a : Addr}
    (h : inWindow cfg readChannel a = true) :
    deviceRead cfg (.oracle (w :: ws)) draws a = ⟨w, .oracle ws, draws⟩ := by
  simp [deviceRead, h]

/-! ## Accept (R55) -/

theorem acceptCommand_of_le {i : Instr} {op : BitVec 4} {ch len n : Nat} {s : State} (h : ch ≤ 15) :
    acceptCommand i op ch len n s =
      latchCommand op ch len n (BitVec.ofNat 32 (windowBase s.cfg ch)) (emit [.accept (encode i)] s) := by
  simp [acceptCommand, fifoAddr_of_le h]

theorem acceptCommand_of_gt {i : Instr} {op : BitVec 4} {ch len n : Nat} {s : State} (h : 15 < ch) :
    acceptCommand i op ch len n s =
      raiseHalt .channelRange (encode i) (emit [.accept (encode i)] s) := by
  simp [acceptCommand, fifoAddr_of_gt h]

/-! ## The step of a command (R55 to R58) -/

section
variable {i : Instr} {accept : State → State} {transfer : State → Result} {s t : State}

theorem commandStep_idle (hw : i.wellFormed = true) (hs : s.state = .idle) :
    commandStep i accept transfer s = .next (accept s) := by simp [commandStep, hw, hs]

theorem commandStep_busy (hw : i.wellFormed = true) (hs : s.state = .busy) (hl : latched s = some i) :
    commandStep i accept transfer s = busyStep transfer s := by simp [commandStep, hw, hs, hl]

theorem commandStep_held (hw : i.wellFormed = true) (hs : s.state = .busy) (hl : latched s ≠ some i) :
    commandStep i accept transfer s = .next s := by simp [commandStep, hw, hs, hl]

theorem commandStep_halted (hw : i.wellFormed = true) (hs : s.state = .halted) :
    commandStep i accept transfer s = .fault (.halted s.cause) := by simp [commandStep, hw, hs]

theorem commandStep_refused (hw : i.wellFormed = false) :
    commandStep i accept transfer s = .refused .operandOutOfRange := by simp [commandStep, hw]

theorem busyStep_transfer (h : s.idx.toNat < s.nreg.toNat) : busyStep transfer s = transfer s := by
  simp [busyStep, h]

theorem busyStep_done (h : s.idx = s.nreg) : busyStep transfer s = .next (finishCommand s) := by
  simp [busyStep, h]

/-- Everything a step in `BUSY` can do when it answers a next state. -/
theorem busyStep_next (h : busyStep transfer s = .next t) :
    (s.idx.toNat < s.nreg.toNat ∧ transfer s = .next t) ∨
    (s.idx = s.nreg ∧ t = finishCommand s) ∨
    (s.nreg.toNat < s.idx.toNat ∧ t = s) := by
  unfold busyStep at h
  split at h
  · exact .inl ⟨‹_›, h⟩
  · split at h
    · cases h; exact .inr (.inl ⟨‹_›, rfl⟩)
    · cases h
      have : s.idx.toNat ≠ s.nreg.toNat := fun e => ‹¬s.idx = s.nreg› (BitVec.eq_of_toNat_eq e)
      exact .inr (.inr ⟨by omega, rfl⟩)

/-- Everything a command's step can do when it answers a next state. -/
theorem commandStep_next (h : commandStep i accept transfer s = .next t) :
    i.wellFormed = true ∧
    ((s.state = .idle ∧ t = accept s) ∨
     (s.state = .busy ∧ latched s = some i ∧ busyStep transfer s = .next t) ∨
     (s.state = .busy ∧ latched s ≠ some i ∧ t = s)) := by
  unfold commandStep at h
  split at h
  · refine ⟨‹_›, ?_⟩
    split at h
    · cases h; exact .inl ⟨‹_›, rfl⟩
    · split at h
      · exact .inr (.inl ⟨‹_›, ‹_›, h⟩)
      · cases h; exact .inr (.inr ⟨‹_›, ‹_›, rfl⟩)
    · cases h
  · cases h

/-- Everything a transfer step can do when it answers a next state: it is made, or it waits. -/
theorem transferWhen_next {ready : Bool} {after : State} (h : transferWhen ready after s = .next t) :
    isWindowBase s.cfg s.areg = true ∧ ((ready = true ∧ t = after) ∨ (ready = false ∧ t = s)) := by
  unfold transferWhen at h
  split at h
  · refine ⟨‹_›, ?_⟩
    split at h <;> cases h
    · exact .inl ⟨‹_›, rfl⟩
    · exact .inr ⟨by simpa using ‹¬ready = true›, rfl⟩
  · cases h

end

/-! ## The latched command (R12) -/

theorem latched_eq_fwr {s : State} {ch len : Nat} :
    latched s = some (.fwr ch len) ↔ s.opreg = 0x1 ∧ s.chreg.toNat = ch ∧ s.lenreg.toNat = len := by
  unfold latched
  split <;> rename_i h1
  · simp [h1]
  · simp only [h1, false_and, iff_false]
    split
    · simp
    · split <;> simp

theorem latched_eq_frd {s : State} {len : Nat} :
    latched s = some (.frd len) ↔ s.opreg = 0x2 ∧ s.lenreg.toNat = len := by
  unfold latched
  split <;> rename_i h1
  · simp [h1]
  · split <;> rename_i h2
    · simp [h2]
    · simp only [h2, false_and, iff_false]
      split <;> simp

theorem latched_eq_frdw {s : State} {len : Nat} :
    latched s = some (.frdw len) ↔ s.opreg = 0x3 ∧ s.lenreg.toNat = len := by
  unfold latched
  split <;> rename_i h1
  · simp [h1]
  · split <;> rename_i h2
    · simp [h2]
    · split <;> rename_i h3
      · simp [h3]
      · exact ⟨fun h => (nomatch h), fun h => absurd h.1 h3⟩

/-- The latched command always fits a descriptor. -/
theorem latched_wellFormed {s : State} {i : Instr} (h : latched s = some i) : i.wellFormed = true := by
  cases i with
  | fwr ch len =>
    obtain ⟨-, rfl, rfl⟩ := latched_eq_fwr.mp h
    simpa [Instr.wellFormed, channelFits, lengthFits] using ⟨s.chreg.isLt, s.lenreg.isLt⟩
  | frd len =>
    obtain ⟨-, rfl⟩ := latched_eq_frd.mp h
    simpa [Instr.wellFormed, lengthFits] using s.lenreg.isLt
  | frdw len =>
    obtain ⟨-, rfl⟩ := latched_eq_frdw.mp h
    simpa [Instr.wellFormed, lengthFits] using s.lenreg.isLt

/-- A decoded command always fits a descriptor. -/
theorem decode_wellFormed {d : Descriptor} {i : Instr} (h : decode d = .cmd i) : i.wellFormed = true := by
  have hc := (chField d).isLt
  have hl := (lenField d).isLt
  unfold decode at h
  split at h
  · cases h
  · split at h
    · cases h; simpa [Instr.wellFormed, channelFits, lengthFits] using ⟨hc, hl⟩
    · split at h
      · split at h <;> cases h
        simpa [Instr.wellFormed, lengthFits] using hl
      · split at h
        · split at h <;> cases h
          simpa [Instr.wellFormed, lengthFits] using hl
        · cases h

end Sys2Proof.Machine
end

