-- ==== Sys2Proof/Laws/PerInstr.lean ====
section
/-! SUPPORT. Facts about every command as syntax, one lemma per constructor of Instr. -/

namespace Sys2Proof.Laws.TableRow

/-- The descriptor of a well-formed command carries its row's operation code and a zero `RSV` (R41, R43), as numbers. -/
def Statement (i : Instr) : Prop :=
  i.wellFormed = true →
    (encode i).toNat / 2 ^ 60 = i.row.pattern.toNat / 2 ^ 60 ∧ (encode i).toNat / 2 ^ 40 % 2 ^ 20 = 0

theorem fwr (ch len : Nat) : Statement (.fwr ch len) := by
  intro h
  have hf : ch < 2 ^ 8 ∧ len < 2 ^ 32 := by
    simpa [Instr.wellFormed, channelFits, lengthFits] using h
  have hn : (encode (.fwr ch len)).toNat = 1 * 2 ^ 60 + ch * 2 ^ 32 + len := by
    simp only [encode, BitVec.toNat_ofNat]; omega
  have hr : (Instr.row (.fwr ch len)).pattern.toNat = 2 ^ 60 := rfl
  omega

theorem frd (len : Nat) : Statement (.frd len) := by
  intro h
  have hf : len < 2 ^ 32 := by simpa [Instr.wellFormed, lengthFits] using h
  have hn : (encode (.frd len)).toNat = 2 * 2 ^ 60 + len := by
    simp only [encode, BitVec.toNat_ofNat]; omega
  have hr : (Instr.row (.frd len)).pattern.toNat = 2 * 2 ^ 60 := rfl
  omega

theorem frdw (len : Nat) : Statement (.frdw len) := by
  intro h
  have hf : len < 2 ^ 32 := by simpa [Instr.wellFormed, lengthFits] using h
  have hn : (encode (.frdw len)).toNat = 3 * 2 ^ 60 + len := by
    simp only [encode, BitVec.toNat_ofNat]; omega
  have hr : (Instr.row (.frdw len)).pattern.toNat = 3 * 2 ^ 60 := rfl
  omega

end Sys2Proof.Laws.TableRow
end

