-- ==== Sys2Proof/Laws/Step.lean ====
section
/-! SUPPORT. What one step can do, said once: the step on another agent's turn, on the block's turn, and the inversion of a step
that answers a next state. -/

namespace Sys2Proof.Machine

@[simp] theorem Action.result_run (i : Instr) (t : State) : (Action.run i t).result = exec i t := rfl
@[simp] theorem Action.result_answer (o : Result) : (Action.answer o).result = o := rfl

theorem dropTurn_of_nil {s : State} (h : s.turns = []) : dropTurn s = s := by
  cases s; simp only at h; subst h; rfl

theorem step_of_bad_config {s : State} (h : configOk s.cfg = false) : step s = .refused .configNotWellFormed := by
  simp [step, nextAction, h]

/-- Another agent's turn. -/
theorem step_turn {s : State} {u : Turn} {ts : List Turn} (hc : configOk s.cfg = true) (ht : s.turns = u :: ts)
    (hu : u ≠ .block) : step s = .next (takeTurn u (dropTurn s)) := by
  cases u <;> simp_all [step, nextAction]

/-- The block's turn. -/
theorem step_block {s : State} (hc : configOk s.cfg = true) (ht : BlocksTurn s) :
    step s = (blockAction (dropTurn s)).result := by
  rcases ht with h | h
  · simp [step, nextAction, hc, h, dropTurn_of_nil h]
  · obtain ⟨ts, hts⟩ : ∃ ts, s.turns = .block :: ts := by
      cases hs : s.turns with
      | nil => simp [hs] at h
      | cons u us => simp [hs] at h; exact ⟨us, by rw [h]⟩
    simp [step, nextAction, hc, hts]

theorem step_idle_empty {s : State} (hc : configOk s.cfg = true) (ht : BlocksTurn s) (hs : s.state = .idle)
    (hm : s.cmd = []) : step s = .next (dropTurn s) := by
  simp [step_block hc ht, blockAction, hs, hm]

theorem step_idle_cmd {s : State} {d : Descriptor} {ds : List Descriptor} {i : Instr} (hc : configOk s.cfg = true)
    (ht : BlocksTurn s) (hs : s.state = .idle) (hm : s.cmd = d :: ds) (hd : decode d = .cmd i) :
    step s = exec i (takeDescriptor (dropTurn s)) := by
  simp [step_block hc ht, blockAction, hs, hm, hd]

theorem step_idle_illegal {s : State} {d : Descriptor} {ds : List Descriptor} {why : Illegal}
    (hc : configOk s.cfg = true) (ht : BlocksTurn s) (hs : s.state = .idle) (hm : s.cmd = d :: ds)
    (hd : decode d = .illegal why) : step s = .next (acceptIllegal d (takeDescriptor (dropTurn s))) := by
  simp [step_block hc ht, blockAction, hs, hm, hd]

@[simp] theorem latched_dropTurn (s : State) : latched (dropTurn s) = latched s := rfl

theorem step_busy {s : State} {i : Instr} (hc : configOk s.cfg = true) (ht : BlocksTurn s) (hs : s.state = .busy)
    (hl : latched s = some i) : step s = exec i (dropTurn s) := by
  simp [step_block hc ht, blockAction, hs, hl]

theorem step_orphan {s : State} (hc : configOk s.cfg = true) (ht : BlocksTurn s) (hs : s.state = .busy)
    (hl : latched s = none) : step s = orphanStep (dropTurn s) := by
  simp [step_block hc ht, blockAction, hs, hl]

theorem step_halted {s : State} (hc : configOk s.cfg = true) (ht : BlocksTurn s) (hs : s.state = .halted) :
    step s = .fault (.halted s.cause) := by
  simp [step_block hc ht, blockAction, hs]

/-- The accept step of a command as one function of the command (R55). -/
def acceptOf : Instr → State → State
  | .fwr ch len => acceptCommand (.fwr ch len) 0x1 ch len (ngroups len)
  | .frd len => acceptCommand (.frd len) 0x2 readChannel len (ngroups len)
  | .frdw len => acceptCommand (.frdw len) 0x3 readChannel len len

/-- The transfer step of a command as one function of the command (R56). -/
def transferOf : Instr → State → Result
  | .fwr _ _ => transferFwr
  | .frd _ => transferFrd
  | .frdw _ => transferFrdw

/-- The state after a transfer step that is made (R61, R67, R71). -/
def afterOf : Instr → State → State
  | .fwr _ _ => afterFwr
  | .frd _ => afterFrd
  | .frdw _ => afterFrdw

theorem exec_eq (i : Instr) (s : State) : exec i s = commandStep i (acceptOf i) (transferOf i) s := by
  cases i <;> rfl

theorem transferOf_eq (i : Instr) (s : State) : transferOf i s = transferWhen (servedOf i s) (afterOf i s) s := by
  cases i <;> rfl

/-- Everything the block can do on its turn when it answers a next state, at the state `b` with the turn dropped. -/
inductive BlockMove (b : State) : State → Prop
  /-- Nothing is enabled, or the due transfer step is not served (R58, R95, R96). -/
  | wait : BlockMove b b
  /-- The accept step of a legal descriptor (R55). -/
  | accept (d : Descriptor) (ds : List Descriptor) (i : Instr) (hs : b.state = .idle) (hm : b.cmd = d :: ds)
      (hd : decode d = .cmd i) : BlockMove b (acceptOf i (takeDescriptor b))
  /-- The accept step of an illegal descriptor (R76). -/
  | illegal (d : Descriptor) (ds : List Descriptor) (why : Illegal) (hs : b.state = .idle) (hm : b.cmd = d :: ds)
      (hd : decode d = .illegal why) : BlockMove b (acceptIllegal d (takeDescriptor b))
  /-- A transfer step (R56). -/
  | transfer (i : Instr) (hs : b.state = .busy) (hl : latched b = some i) (hi : b.idx.toNat < b.nreg.toNat)
      (hw : isWindowBase b.cfg b.areg = true) (hr : servedOf i b = true) : BlockMove b (afterOf i b)
  /-- The done step (R57). -/
  | done (hs : b.state = .busy) (hi : b.idx = b.nreg) : BlockMove b (finishCommand b)

/-- The inversion of a step: when it answers a next state, either another agent moved or the block made one of its moves. -/
theorem step_next {s t : State} (h : step s = .next t) :
    configOk s.cfg = true ∧
    ((∃ u ts, s.turns = u :: ts ∧ u ≠ .block ∧ t = takeTurn u (dropTurn s)) ∨
     (BlocksTurn s ∧ BlockMove (dropTurn s) t)) := by
  have hc : configOk s.cfg = true := by
    by_contra hc
    rw [step_of_bad_config (by simpa using hc)] at h
    cases h
  refine ⟨hc, ?_⟩
  by_cases hb : BlocksTurn s
  · refine .inr ⟨hb, ?_⟩
    cases hs : s.state with
    | halted => rw [step_halted hc hb hs] at h; cases h
    | idle =>
      cases hm : s.cmd with
      | nil => rw [step_idle_empty hc hb hs hm] at h; cases h; exact .wait
      | cons d ds =>
        cases hd : decode d with
        | illegal why =>
          rw [step_idle_illegal hc hb hs hm hd] at h; cases h
          exact .illegal d ds why hs hm hd
        | cmd i =>
          rw [step_idle_cmd hc hb hs hm hd, exec_eq, commandStep_idle (decode_wellFormed hd) (s := takeDescriptor (dropTurn s)) hs] at h
          cases h
          exact .accept d ds i hs hm hd
    | busy =>
      cases hl : latched s with
      | none =>
        rw [step_orphan hc hb hs hl] at h
        rcases busyStep_next h with ⟨-, h⟩ | ⟨hi, rfl⟩ | ⟨-, rfl⟩
        · cases h
        · exact .done hs hi
        · exact .wait
      | some i =>
        rw [step_busy hc hb hs hl, exec_eq] at h
        rw [commandStep_busy (latched_wellFormed hl) (s := dropTurn s) hs hl] at h
        rcases busyStep_next h with ⟨hi, h⟩ | ⟨hi, rfl⟩ | ⟨-, rfl⟩
        · rw [transferOf_eq] at h
          obtain ⟨hw, ⟨hr, rfl⟩ | ⟨-, rfl⟩⟩ := transferWhen_next h
          · exact .transfer i hs hl hi hw hr
          · exact .wait
        · exact .done hs hi
        · exact .wait
  · refine .inl ?_
    cases ht : s.turns with
    | nil => exact absurd (.inl ht) hb
    | cons u ts =>
      have hu : u ≠ .block := fun e => hb (.inr (by simp [ht, e]))
      rw [step_turn hc ht hu] at h
      cases h
      exact ⟨u, ts, rfl, hu, rfl⟩

/-! ## The turns of other agents -/

@[simp] theorem takeTurn_cfg (u : Turn) (s : State) : (takeTurn u s).cfg = s.cfg := by
  cases u <;> try rfl
  simp only [takeTurn, receiveHalf]; split <;> rfl

/-- Another agent's read in another window than the read channel's changes nothing (R93). -/
theorem otherAgentReads_outside {s : State} {a : Addr} (hc : configOk s.cfg = true)
    (h : inWindow s.cfg readChannel a = false) : otherAgentReads a s = s := by
  simp [otherAgentReads, h, deviceRead_outside hc h]

theorem otherAgentReads_inside {s : State} {a : Addr} (h : inWindow s.cfg readChannel a = true) :
    otherAgentReads a s = { s with
      device := (deviceRead s.cfg s.device s.draws a).dev
      draws := (deviceRead s.cfg s.device s.draws a).draws } := by
  simp [otherAgentReads, h]

/-- A move of another agent that is not reset leaves the block's registers and the history, and takes nothing from the ports. -/
theorem takeTurn_frame {u : Turn} (hu : u ≠ .reset) (s : State) :
    (takeTurn u s).state = s.state ∧ (takeTurn u s).cause = s.cause ∧ (takeTurn u s).info = s.info ∧
    (takeTurn u s).opreg = s.opreg ∧ (takeTurn u s).chreg = s.chreg ∧ (takeTurn u s).lenreg = s.lenreg ∧
    (takeTurn u s).areg = s.areg ∧ (takeTurn u s).nreg = s.nreg ∧ (takeTurn u s).idx = s.idx ∧
    (takeTurn u s).wreg = s.wreg ∧ (takeTurn u s).trace = s.trace ∧ (takeTurn u s).turns = s.turns ∧
    s.cmd <+: (takeTurn u s).cmd ∧ s.src <+: (takeTurn u s).src := by
  cases u <;> simp [takeTurn] at hu ⊢
  simp only [receiveHalf]
  split <;> simp

/-! ## Calls (R42, R46) and moves in an execution (R96) -/

/-- A call whose operands fit places its two moves before those listed. -/
theorem Written.call_of_fits {c : Written} (h : c.instr.wellFormed = true) (s : State) :
    c.call s = .next { s with turns := .present (encode c.instr) :: .supply c.payload :: s.turns } := by
  simp [Written.call, Written.hostTurns, h]

/-- A call whose operands do not fit is refused. -/
theorem Written.call_of_misfit {c : Written} (h : c.instr.wellFormed = false) (s : State) :
    c.call s = .refused .operandOutOfRange := by
  simp [Written.call, Written.hostTurns, h]

/-- The block's move in an execution. -/
theorem stepBy_block {s : State} (hc : configOk s.cfg = true) :
    stepBy .block s = (blockAction (dropTurn { s with turns := [.block] })).result :=
  step_block (s := { s with turns := [.block] }) hc (.inr rfl)

/-- Another agent's move in an execution. -/
theorem stepBy_other {s : State} {u : Turn} (hc : configOk s.cfg = true) (hu : u ≠ .block) :
    stepBy u s = .next (takeTurn u (dropTurn { s with turns := [u] })) :=
  step_turn (s := { s with turns := [u] }) hc rfl hu

/-- An execution keeps the configuration well formed, since a step from another is refused (R7). -/
theorem IsExecution.configOk {σ : Nat → State} {u : Nat → Turn} (h : IsExecution σ u) (n : Nat) :
    configOk (σ n).cfg = true :=
  (step_next (h n)).1

/-- How weak fairness is used: if `stays` holds at `n`, is kept until the action is taken, and enables the action, then the action
is taken at some later moment, and `stays` holds up to that moment. -/
theorem WeaklyFair.eventually {enabled taken stays : Nat → Prop} (hf : WeaklyFair enabled taken) {n : Nat} (hn : stays n)
    (hk : ∀ k, n ≤ k → stays k → ¬taken k → stays (k + 1)) (he : ∀ k, stays k → enabled k) :
    ∃ m, n ≤ m ∧ taken m ∧ ∀ k, n ≤ k → k ≤ m → stays k := by
  classical
  have upto : ∀ m, n ≤ m → (∀ k, n ≤ k → k < m → ¬taken k) → stays m := by
    intro m hm
    induction m, hm using Nat.le_induction with
    | base => exact fun _ => hn
    | succ m hm ih => exact fun h => hk m hm (ih fun k h1 h2 => h k h1 (by omega)) (h m hm (by omega))
  have hex : ∃ m, n ≤ m ∧ taken m := by
    by_contra hno
    have hnot : ∀ k, n ≤ k → ¬taken k := fun k h1 h2 => hno ⟨k, h1, h2⟩
    obtain ⟨m, h1, h2⟩ := hf n fun m hm => he m (upto m hm fun k h1 _ => hnot k h1)
    exact hnot m h1 h2
  refine ⟨Nat.find hex, (Nat.find_spec hex).1, (Nat.find_spec hex).2, fun k h1 h2 => upto k h1 fun j h3 h4 h5 => ?_⟩
  exact Nat.find_min hex (lt_of_lt_of_le h4 h2) ⟨h3, h5⟩

theorem served_of_latched {s : State} {i : Instr} (h : latched s = some i) : served s = servedOf i s := by
  simp [served, h]

end Sys2Proof.Machine
end

