-- ==== Sys2Proof/Tests/Slice0.lean ====
section
/-! SUPPORT. Tests, with expected results from the spec's own examples (95_test_vectors.md) or worked out by hand from its
rules, and a witness for the hypotheses of every obligation that has some. -/

namespace Sys2Proof.Tests
open Sys2Proof Sys2Proof.Machine

/-! ## Helpers: small states and what a result holds -/

/-- The next state of a result, if it has one. -/
def nextOf : Result → Option State
  | .next s => some s
  | .fault _ => none
  | .refused _ => none

/-- The reset state under `CFG_T` with byte order `o`, descriptors held and bytes supplied. -/
def idleWith (o : ByteOrder) (cmd : List Descriptor) (src : List Byte) : State :=
  { State.resetWith { Config.cfgT with byteOrder := o } with cmd := cmd, src := src }

/-- `BUSY` with a command latched as R55 says, at access `idx`, the device answering `ws`. -/
def busyWith (o : ByteOrder) (op : BitVec 4) (ch : BitVec 8) (len n idx : BitVec 32) (a : Addr) (src : List Byte)
    (ws : List Word) : State :=
  { State.resetWith { Config.cfgT with byteOrder := o } with
    state := .busy, opreg := op, chreg := ch, lenreg := len, nreg := n, idx := idx, areg := a
    src := src, device := .oracle ws }

/-- V-W6 (`FWR 15`, seven bytes) before its tail group. -/
def fwrTail (o : ByteOrder) : State := busyWith o 1 15 7 2 1 0x50010000 [0x01, 0x02, 0x03] []

/-- V-R6 (`FRD 5`) before its tail group. -/
def frdTail (o : ByteOrder) : State := busyWith o 2 0 5 2 1 0x50001000 [] [0x9ABCDEF0]

/-- V-Q2 (`FRDW 1`) before its read. -/
def frdwLast (o : ByteOrder) : State := busyWith o 3 0 1 1 0 0x50001000 [] [0x12345678]

/-- The state after S2: halted by `FWR 16`. -/
def haltedS2 : State :=
  { State.reset with state := .halted, cause := .channelRange, info := 0x1000001000000003 }

/-! ## WellFormed: each check refuses an ill-formed term -/

theorem test_channel_beyond_field_is_ill_formed : (Instr.fwr 256 0).wellFormed = false := by decide
theorem test_fwr_length_beyond_field_is_ill_formed : (Instr.fwr 0 4294967296).wellFormed = false := by decide
theorem test_frd_length_beyond_field_is_ill_formed : (Instr.frd 4294967296).wellFormed = false := by decide
theorem test_frdw_length_beyond_field_is_ill_formed : (Instr.frdw 4294967296).wellFormed = false := by decide

/-! ## Decoding: the words of 95_test_vectors.md section 2.2 -/

theorem test_decode_fwr :
    decode 0x1000000200000005 = .cmd (.fwr 2 5) ∧ decode 0x100000FF00000000 = .cmd (.fwr 255 0) ∧
    decode 0x10000000FFFFFFFF = .cmd (.fwr 0 4294967295) := by decide

theorem test_decode_frd :
    decode 0x2000000000000006 = .cmd (.frd 6) ∧ decode 0x2000000500000004 = .illegal .channelOnRead := by decide

theorem test_decode_frdw :
    decode 0x3000000000000002 = .cmd (.frdw 2) ∧ decode 0x3000000100000001 = .illegal .channelOnRead := by decide

theorem test_decode_illegal :
    decode 0x0000000000000000 = .illegal .unknownOp ∧ decode 0x4000000000000001 = .illegal .unknownOp ∧
    decode 0xF000000000000000 = .illegal .unknownOp ∧ decode 0x1000010000000004 = .illegal .reservedNonzero ∧
    decode 0x1800000200000005 = .illegal .reservedNonzero ∧ decode 0x1000011000000004 = .illegal .reservedNonzero := by
  decide

theorem test_decodeTableWord :
    decodeTableWord 64 0x1000000200000005 = some (.fwr 2 5) ∧ decodeTableWord 64 0x4000000000000001 = none := by decide

/-- The written form of R47, on the command of S1. -/
theorem test_written_form :
    (Written.fwr 2 [0x01, 0x02, 0x03, 0x04, 0x05]).chars = "FWR 2, [01 02 03 04 05]".toList ∧
    (Written.frd 5).chars = "FRD 5".toList ∧ (Written.frdw 320).chars = "FRDW 320".toList := by decide

/-! ## Operand forms -/

/-- 95_test_vectors.md section 2.1, rows `DE AD BE EF` and `0x1234_5678`. -/
theorem test_pack_unpack :
    pack .le 0xDE 0xAD 0xBE 0xEF = 0xEFBEADDE ∧ pack .be 0xDE 0xAD 0xBE 0xEF = 0xDEADBEEF ∧
    unpack .le 0x12345678 = [0x78, 0x56, 0x34, 0x12] ∧ unpack .be 0x12345678 = [0x12, 0x34, 0x56, 0x78] := by decide

/-- 95_test_vectors.md S3. -/
theorem test_fifoAddr :
    fifoAddr Config.cfgT 0 = some 0x50001000 ∧ fifoAddr Config.cfgT 7 = some 0x50008000 ∧
    fifoAddr Config.cfgT 15 = some 0x50010000 ∧ fifoAddr Config.cfgT 16 = none ∧ fifoAddr Config.cfgT 255 = none := by
  decide

/-- 95_test_vectors.md S4. -/
theorem test_ngroups :
    ngroups 0 = 0 ∧ ngroups 1 = 1 ∧ ngroups 4 = 1 ∧ ngroups 5 = 2 ∧ ngroups 1280 = 320 ∧ ngroups 1281 = 321 := by decide

/-- 95_test_vectors.md section 2.7. -/
theorem test_configOk :
    configOk Config.cfgT = true ∧
    configOk { fifoBase := 0x50000000, fifoOffset := 0x1002, windowSize := 0x1000 } = false ∧
    configOk { fifoBase := 0x50000000, fifoOffset := 0x1000, windowSize := 0x400 } = false ∧
    configOk { fifoBase := 0xFFFF0000, fifoOffset := 0x1000, windowSize := 0x1000 } = false ∧
    configOk { fifoBase := 0, fifoOffset := 0, windowSize := 0x500 } = true := by decide

/-! ## One step of each command, in both byte orders -/

/-- S2: accepting `FWR 16` halts before any access. -/
theorem test_fwr_bad_channel_halts :
    (nextOf (step (idleWith .le [0x1000001000000003] [0x01, 0x02, 0x03]))).map
      (fun t => (t.state, t.cause, t.info, t.src.length, t.trace)) =
    some (.halted, .channelRange, 0x1000001000000003, 3,
      [.accept 0x1000001000000003, .halt .channelRange]) := by decide

/-- V-W6, its tail group: three bytes, one byte of zero padding. -/
theorem test_fwr_tail :
    (nextOf (step (fwrTail .le))).map (fun t => t.trace) =
      some [.srcTake [0x01, 0x02, 0x03], .busWrite 0x50010000 0x00030201] ∧
    (nextOf (step (fwrTail .be))).map (fun t => t.trace) =
      some [.srcTake [0x01, 0x02, 0x03], .busWrite 0x50010000 0x01020300] := by decide

/-- V-R6, its tail group: one whole read, one byte delivered. -/
theorem test_frd_tail :
    (nextOf (step (frdTail .le))).map (fun t => t.trace) =
      some [.busRead 0x50001000 0x9ABCDEF0, .dstBytes [0xF0]] ∧
    (nextOf (step (frdTail .be))).map (fun t => t.trace) =
      some [.busRead 0x50001000 0x9ABCDEF0, .dstBytes [0x9A]] := by decide

/-- V-Q2: the word is delivered unchanged in either byte order. -/
theorem test_frdw_word :
    (nextOf (step (frdwLast .le))).map (fun t => t.trace) =
      some [.busRead 0x50001000 0x12345678, .dstWord 0x12345678] ∧
    (nextOf (step (frdwLast .be))).map (fun t => t.trace) =
      some [.busRead 0x50001000 0x12345678, .dstWord 0x12345678] := by decide

/-- V-H7: `RSV` nonzero and `CH = 16` reports `ILLEGAL_CMD`. -/
theorem test_illegal_wins :
    (nextOf (step (idleWith .le [0x1000011000000004] []))).map (fun t => (t.state, t.cause)) =
      some (.halted, .illegalCmd) := by decide

/-- V-H3: reset after S2 drops the waiting descriptor and clears the status. -/
theorem test_reset_after_halt :
    (nextOf (step { haltedS2 with cmd := [0x2000000000000004], turns := [.reset] })).map
      (fun t => (t.state, t.cause, t.info, t.cmd, t.trace)) = some (.idle, .none, 0, [], [.reset]) := by decide

/-- Section 2.8: the other agent's write lands between the two of the command. -/
theorem test_other_write_lands_in_the_queue :
    (nextOf (step { State.reset with
      device := .loopback 0 [0x04030201], turns := [.otherWrite 0x50001000 0xFFFFFFFF] })).map (fun t => t.device) =
      some (.loopback 0 [0x04030201, 0xFFFFFFFF]) := by decide

/-- R93, last sentence: another agent's read at channel 1's window takes no answer the block's reads would get, and one at
channel 0's steals the next. -/
theorem test_other_read_by_window :
    (nextOf (step { frdTail .le with turns := [.otherRead 0x50002000] })).map (fun t => (t.device, t.draws)) =
      some (.oracle [0x9ABCDEF0], 0) ∧
    (nextOf (step { frdTail .le with turns := [.otherRead 0x50001000] })).map (fun t => t.device) =
      some (.oracle []) := by decide

/-- R42: a call that fits presents its descriptor. -/
theorem test_call_presents :
    (nextOf ((Written.frd 6).call State.reset)).map (fun t => t.turns) =
      some [.present 0x2000000000000006, .supply []] ∧
    nextOf ((Written.frd 4294967296).call State.reset) = none := by decide

/-! ## Witnesses: the hypotheses of each obligation can be met, clause by clause, at boundary values -/

theorem witness_decode_encode :
    (Instr.fwr 255 4294967295).wellFormed = true ∧ (Instr.fwr 0 0).wellFormed = true ∧
    (Instr.frd 4294967295).wellFormed = true ∧ (Instr.frdw 4294967295).wellFormed = true ∧
    decode 0x100000FFFFFFFFFF = .cmd (.fwr 255 4294967295) := by decide

theorem witness_illegal_descriptors :
    (let s := idleWith .le [0x1000010000000004] []
     configOk s.cfg = true ∧ BlocksTurn s ∧ s.state = .idle ∧ s.cmd = [0x1000010000000004] ∧
     decode 0x1000010000000004 = .illegal .reservedNonzero) ∧
    (let s := idleWith .le [0x4000000000000001] []
     configOk s.cfg = true ∧ BlocksTurn s ∧ s.state = .idle ∧ s.cmd = [0x4000000000000001] ∧
     decode 0x4000000000000001 = .illegal .unknownOp) ∧
    (let s := idleWith .le [0x2000000100000004] []
     configOk s.cfg = true ∧ BlocksTurn s ∧ s.state = .idle ∧ s.cmd = [0x2000000100000004] ∧
     decode 0x2000000100000004 = .illegal .channelOnRead) := by decide

theorem witness_bad_channel_descriptor :
    let s := idleWith .be [0x1000001000000003] []
    configOk s.cfg = true ∧ BlocksTurn s ∧ s.state = .idle ∧ s.cmd = [0x1000001000000003] ∧
    opField 0x1000001000000003 = 0x1 ∧ rsvField 0x1000001000000003 = 0 ∧ 15 < (chField 0x1000001000000003).toNat := by
  decide

theorem witness_two_words :
    let s := { State.reset with turns := [.presentHalf 0x10000002, .presentHalf 0x00000005] }
    configOk s.cfg = true ∧ s.cmdHalf = none ∧ s.turns = [.presentHalf 0x10000002, .presentHalf 0x00000005] := by decide

/-- Each kind of call, at the ends of its operands' ranges, and a call of each kind that does not fit. -/
theorem witness_call :
    configOk State.reset.cfg = true ∧ (Written.fwr 255 []).instr.wellFormed = true ∧
    (Written.fwr 2 [0x01, 0x02, 0x03, 0x04, 0x05]).instr.wellFormed = true ∧
    (Written.frd 4294967295).instr.wellFormed = true ∧ (Written.frdw 4294967295).instr.wellFormed = true ∧
    (Written.fwr 256 []).instr.wellFormed = false ∧ (Written.frd 4294967296).instr.wellFormed = false ∧
    (Written.frdw 4294967296).instr.wellFormed = false := by decide

/-- A buffer of 2^32 bytes fits no descriptor. -/
theorem witness_call_too_long (bytes : List Byte) (h : bytes.length = 2 ^ 32) :
    (Written.fwr 2 bytes).instr.wellFormed = false := by
  simp [Written.instr, Instr.wellFormed, lengthFits, h]

theorem witness_group_count : 4294967295 < 2 ^ 32 ∧ ngroups 4294967295 = 2 ^ 30 := by decide

theorem witness_groups :
    let b : List Byte := [1, 2, 3, 4, 5]
    0 < ngroups b.length ∧ 0 < b.length / 4 ∧ 1 < ngroups b.length ∧ gsize b.length 1 < 4 := by decide

theorem witness_configurations :
    0 < Config.cfgT.fifoDepthWords ∧ configOk Config.cfgT = true ∧ (0 : Nat) < 1 ∧ (14 : Nat) < 15 ∧ (15 : Nat) ≤ 15 ∧
    configOk (State.resetWith { Config.cfgT with windowSize := 0x400 }).cfg = false := by decide

theorem witness_address :
    configOk Config.cfgT = true ∧ (15 : Nat) ≤ 15 ∧ (15 : Nat) < 16 ∧ State.reset.state = .idle ∧ (15 : Nat) < 255 ∧
    (255 : Nat) < 2 ^ 8 ∧ (4294967295 : Nat) < 2 ^ 32 := by decide

theorem witness_accept :
    State.reset.state = .idle ∧ (15 : Nat) ≤ 15 ∧ (4294967295 : Nat) < 2 ^ 32 ∧ (15 : Nat) < 16 ∧ (16 : Nat) < 2 ^ 8 := by
  decide

theorem witness_accept_illegal :
    let s := { idleWith .le [0x0000000000000000] [] with turns := [.block] }
    configOk s.cfg = true ∧ BlocksTurn s ∧ s.state = .idle ∧ s.cmd = [0x0000000000000000] ∧
    decode 0x0000000000000000 = .illegal .unknownOp := by decide

theorem witness_fwr_transfer :
    let s := fwrTail .be
    7 < 2 ^ 32 ∧ 15 ≤ 15 ∧ configOk s.cfg = true ∧ s.state = .busy ∧ s.opreg = 0x1 ∧ s.chreg.toNat = 15 ∧
    s.lenreg.toNat = 7 ∧ s.areg.toNat = windowBase s.cfg 15 ∧ s.nreg.toNat = ngroups 7 ∧ s.idx.toNat < ngroups 7 ∧
    s.busReady = true ∧ min 4 (7 - 4 * s.idx.toNat) ≤ s.src.length := by decide

theorem witness_frd_transfer :
    let s := frdTail .be
    5 < 2 ^ 32 ∧ configOk s.cfg = true ∧ s.state = .busy ∧ s.opreg = 0x2 ∧ s.lenreg.toNat = 5 ∧
    s.areg.toNat = windowBase s.cfg 0 ∧ s.nreg.toNat = ngroups 5 ∧ s.idx.toNat < ngroups 5 ∧
    s.busReady = true ∧ s.byteSinkReady = true := by decide

theorem witness_frdw_transfer :
    let s := frdwLast .le
    1 < 2 ^ 32 ∧ configOk s.cfg = true ∧ s.state = .busy ∧ s.opreg = 0x3 ∧ s.lenreg.toNat = 1 ∧
    s.areg.toNat = windowBase s.cfg 0 ∧ s.idx.toNat < s.nreg.toNat ∧ s.busReady = true ∧ s.wordSinkReady = true := by
  decide

theorem witness_done :
    (let s := busyWith .le 1 15 7 2 2 0x50010000 [] []
     (Instr.fwr 15 7).wellFormed = true ∧ s.state = .busy ∧ latched s = some (.fwr 15 7) ∧ s.idx = s.nreg) ∧
    (let s := busyWith .le 2 0 5 2 2 0x50001000 [] []
     (Instr.frd 5).wellFormed = true ∧ s.state = .busy ∧ latched s = some (.frd 5) ∧ s.idx = s.nreg) ∧
    (let s := busyWith .le 3 0 1 1 1 0x50001000 [] []
     (Instr.frdw 1).wellFormed = true ∧ s.state = .busy ∧ latched s = some (.frdw 1) ∧ s.idx = s.nreg) := by decide

theorem witness_done_empty :
    State.reset.state = .idle ∧
    ((∃ ch, ch ≤ 15 ∧ Instr.fwr 15 0 = .fwr ch 0) ∨ Instr.fwr 15 0 = .frd 0 ∨ Instr.fwr 15 0 = .frdw 0) :=
  ⟨rfl, .inl ⟨15, by decide, rfl⟩⟩

theorem witness_unserved :
    (let s := { fwrTail .le with src := [0x01, 0x02] }
     (Instr.fwr 15 7).wellFormed = true ∧ configOk s.cfg = true ∧ s.state = .busy ∧ latched s = some (.fwr 15 7) ∧
     isWindowBase s.cfg s.areg = true ∧ s.idx.toNat < s.nreg.toNat ∧ s.src.length < gsize 7 s.idx.toNat) ∧
    (let s := { frdTail .le with byteSinkReady := false }
     (Instr.frd 5).wellFormed = true ∧ configOk s.cfg = true ∧ s.state = .busy ∧ latched s = some (.frd 5) ∧
     isWindowBase s.cfg s.areg = true ∧ s.idx.toNat < s.nreg.toNat ∧ s.byteSinkReady = false) ∧
    (let s := { frdwLast .le with busReady := false }
     (Instr.frdw 1).wellFormed = true ∧ configOk s.cfg = true ∧ s.state = .busy ∧ latched s = some (.frdw 1) ∧
     isWindowBase s.cfg s.areg = true ∧ s.idx.toNat < s.nreg.toNat ∧ s.busReady = false) := by decide

theorem witness_operand_beyond_field :
    (Instr.fwr 256 0).wellFormed = false ∧ (Instr.fwr 0 4294967296).wellFormed = false ∧
    (Instr.frd 4294967296).wellFormed = false ∧ (Instr.frdw 4294967296).wellFormed = false := by decide

theorem witness_step_runs :
    (let s := { idleWith .le [0x2000000000000006] [] with turns := [.block] }
     configOk s.cfg = true ∧ BlocksTurn s ∧ s.state = .idle ∧ s.cmd = [0x2000000000000006] ∧
     decode 0x2000000000000006 = .cmd (.frd 6)) ∧
    (let s := fwrTail .le
     configOk s.cfg = true ∧ BlocksTurn s ∧ s.state = .busy ∧ latched s = some (.fwr 15 7)) ∧
    (configOk State.reset.cfg = true ∧ BlocksTurn State.reset ∧ State.reset.state = .idle ∧ State.reset.cmd = []) ∧
    (configOk haltedS2.cfg = true ∧ BlocksTurn haltedS2 ∧ haltedS2.state = .halted) := by decide

theorem witness_only_a_bad_channel :
    (Instr.fwr 15 0).wellFormed = true ∧ (Instr.fwr 16 0).wellFormed = true ∧ (Instr.frd 0).wellFormed = true ∧
    State.reset.state = .idle := by decide

theorem witness_halt_is_precise :
    ∃ t, step (idleWith .le [0x1000001000000003] [0x01]) = .next t ∧
      (idleWith .le [0x1000001000000003] [0x01]).state ≠ .halted ∧ t.state = .halted :=
  ⟨_, rfl, by decide, by decide⟩

theorem witness_halted_until_reset :
    configOk haltedS2.cfg = true ∧ haltedS2.state = .halted ∧ BlocksTurn haltedS2 ∧
    Turn.present 0x2000000000000004 ≠ .block ∧ Turn.present 0x2000000000000004 ≠ .reset ∧
    ({ haltedS2 with turns := [.present 0x2000000000000004] } : State).state = .halted ∧
    ({ haltedS2 with turns := [.reset] } : State).state = .halted := by decide

theorem witness_illegal_beats_channel :
    (let s := idleWith .le [0x1000011000000004] []
     configOk s.cfg = true ∧ BlocksTurn s ∧ s.state = .idle ∧ s.cmd = [0x1000011000000004] ∧
     opField 0x1000011000000004 = 0x1 ∧ rsvField 0x1000011000000004 ≠ 0 ∧ 15 < (chField 0x1000011000000004).toNat) ∧
    (let s := { idleWith .le [0x1000011000000004] [] with turns := [.reset] }
     configOk s.cfg = true ∧ s.turns = [.reset]) := by decide

theorem witness_reset :
    ∃ t, step { haltedS2 with turns := [.reset] } = .next t ∧ configOk haltedS2.cfg = true ∧
      haltedS2.state = .halted ∧ t.state ≠ .halted ∧ t.trace = haltedS2.trace ++ [.reset] ∧ Event.reset ∈ [Event.reset] :=
  ⟨_, rfl, by decide, by decide, by decide, by decide, by decide⟩

theorem witness_abandoned :
    let s := { fwrTail .le with turns := [.reset] }
    configOk s.cfg = true ∧ s.state = .busy ∧ s.turns = [.reset] := by decide

theorem witness_first_descriptor :
    (let s := { fwrTail .le with turns := [.reset, .present 0x2000000000000000] }
     configOk s.cfg = true ∧ s.turns = [.reset, .present 0x2000000000000000] ∧ acceptCause 0x2000000000000000 = .none) ∧
    acceptCause 0x1000001000000000 = .channelRange ∧ acceptCause 0 = .illegalCmd := by decide

theorem witness_other_agents :
    ({ fwrTail .le with turns := [.otherWrite 0x50001000 0xFFFFFFFF] } : State).turns =
      [.otherWrite 0x50001000 0xFFFFFFFF] ∧
    (fwrTail .le).device = .oracle [] ∧
    ({ fwrTail .le with turns := [.otherRead 0x50001000] } : State).turns = [.otherRead 0x50001000] ∧
    inWindow (fwrTail .le).cfg 0 0x50001000 = true ∧ inWindow (fwrTail .le).cfg 0 0x50001FFC = true ∧
    inWindow (fwrTail .le).cfg 0 0x50002000 = false ∧ inWindow (fwrTail .le).cfg 0 0x50000FFC = false ∧
    ({ fwrTail .le with turns := [.deviceChange (.oracle [])] } : State).turns = [.deviceChange (.oracle [])] ∧
    configOk (fwrTail .le).cfg = true := by decide

theorem witness_loopback :
    (0x50010000 : Addr).toNat = windowBase Config.cfgT 15 ∧ ([] : List Word).length < Config.cfgT.fifoDepthWords ∧
    (0x50010004 : Addr).toNat ≠ windowBase Config.cfgT 15 ∧ (0x50001000 : Addr).toNat = windowBase Config.cfgT 0 ∧
    configOk Config.cfgT = true ∧ inWindow Config.cfgT 15 0x50011000 = false ∧
    inWindow Config.cfgT 0 0x50002000 = false := by decide

theorem witness_descriptors_held :
    ∃ t, step { fwrTail .le with cmd := [0x2000000000000000] } = .next t ∧ (fwrTail .le).state ≠ .idle ∧
      (fwrTail .le).turns.head? ≠ some .reset :=
  ⟨_, rfl, by decide, by decide⟩

theorem witness_command_not_in_progress :
    (Instr.frd 0).wellFormed = true ∧ (fwrTail .le).state = .busy ∧ latched (fwrTail .le) ≠ some (.frd 0) := by decide

theorem witness_invariant :
    Inv State.reset ∧ Inv (fwrTail .be) ∧ Inv (frdTail .le) ∧ Inv (frdwLast .le) ∧ Inv haltedS2 ∧
    configOk { Config.cfgT with fifoBase := 0xFFFEF000, fifoOffset := 0x1000 } = true :=
  ⟨by decide, by decide, by decide, by decide, by decide, by decide⟩

theorem witness_step_keeps_invariant : Inv (fwrTail .le) ∧ ∃ t, step (fwrTail .le) = .next t :=
  ⟨by decide, _, rfl⟩

theorem witness_state_changes :
    (∃ t, step (idleWith .le [0x2000000000000000] []) = .next t ∧
      (idleWith .le [0x2000000000000000] []).state ≠ t.state) ∧
    (∃ t, step (busyWith .le 1 15 7 2 2 0x50010000 [] []) = .next t ∧ t.state = .idle) ∧
    (∃ t, step (idleWith .le [0] []) = .next t ∧ t.state = .halted) ∧
    (∃ t, step { haltedS2 with turns := [.reset] } = .next t ∧ t.state = .idle) :=
  ⟨⟨_, rfl, by decide⟩, ⟨_, rfl, by decide⟩, ⟨_, rfl, by decide⟩, ⟨_, rfl, by decide⟩⟩

theorem witness_access :
    (∃ t, Inv (fwrTail .le) ∧ step (fwrTail .le) = .next t ∧
      t.trace = (fwrTail .le).trace ++ [.srcTake [0x01, 0x02, 0x03], .busWrite 0x50010000 0x00030201]) ∧
    (∃ t, Inv (frdTail .le) ∧ step (frdTail .le) = .next t ∧
      t.trace = (frdTail .le).trace ++ [.busRead 0x50001000 0x9ABCDEF0, .dstBytes [0xF0]]) :=
  ⟨⟨_, by decide, rfl, by decide⟩, ⟨_, by decide, rfl, by decide⟩⟩

theorem witness_run : ∃ t, run 2 (fwrTail .le) = .next t ∧ t.state = .idle := ⟨_, rfl, by decide⟩

theorem witness_same_but_unspecified :
    SameButUnspecified (fwrTail .le) { fwrTail .le with wreg := 0xFFFFFFFF } ∧
    SameButUnspecified State.reset { State.reset with opreg := 0x3, idx := 5 } :=
  ⟨.inl ⟨_, rfl⟩, .inr ⟨by decide, 0x3, 0, 0, 0, 0, 5, 0, rfl⟩⟩

theorem witness_fwr_whole :
    (let s := idleWith .be [encode (.fwr 15 5), 0x2000000000000001] ([0x01, 0x02, 0x03, 0x04, 0x05] ++ [0x06])
     configOk s.cfg = true ∧ s.turns = [] ∧ s.state = .idle ∧ s.cause = .none ∧ s.busReady = true ∧ 15 ≤ 15 ∧
     5 < 2 ^ 32 ∧ s.cmd = encode (.fwr 15 5) :: [0x2000000000000001] ∧
     s.src = [0x01, 0x02, 0x03, 0x04, 0x05] ++ [0x06]) ∧
    (idleWith .be [encode (.fwr 0 0)] []).cmd = [encode (.fwr 0 0)] := by decide

/-- Section 2.8's interleaving, with a full-length read of the other agent as well. -/
theorem witness_interleaved_write :
    let ts : List Turn := [.block, .otherWrite 0x50001000 0xFFFFFFFF, .block, .otherRead 0x50001000, .block]
    let s := { idleWith .le [encode (.fwr 0 4)] [0x01, 0x02, 0x03, 0x04] with turns := ts }
    configOk s.cfg = true ∧ s.state = .idle ∧ s.busReady = true ∧ s.cmd = [encode (.fwr 0 4)] ∧
    s.src = [0x01, 0x02, 0x03, 0x04] ++ [] ∧ (∀ u ∈ s.turns, u ≠ .reset ∧ u ≠ .setBusReady false) ∧
    s.turns.count .block = ngroups 4 + 2 := by decide

theorem witness_frd_whole :
    let s := { idleWith .be [encode (.frd 5)] [] with device := .oracle [0x12345678, 0x9ABCDEF0] }
    configOk s.cfg = true ∧ s.turns = [] ∧ s.state = .idle ∧ s.cause = .none ∧ s.busReady = true ∧
    s.byteSinkReady = true ∧ 5 < 2 ^ 32 ∧ s.cmd = [encode (.frd 5)] ∧
    answersOf s.cfg s.device s.draws (BitVec.ofNat 32 (windowBase s.cfg 0)) (ngroups 5) = [0x12345678, 0x9ABCDEF0] := by
  decide

theorem witness_frdw_whole :
    (let s := { idleWith .be [encode (.frdw 2)] [] with device := .oracle [0x11111111, 0x22222222] }
     configOk s.cfg = true ∧ s.turns = [] ∧ s.state = .idle ∧ s.cause = .none ∧ s.busReady = true ∧
     s.wordSinkReady = true ∧ 2 < 2 ^ 32 ∧ s.cmd = [encode (.frdw 2)] ∧
     answersOf s.cfg s.device s.draws (BitVec.ofNat 32 (windowBase s.cfg 0)) 2 = [0x11111111, 0x22222222]) ∧
    (let s := idleWith .be [0x3000000100000001] []
     configOk s.cfg = true ∧ s.turns = [] ∧ s.state = .idle ∧ s.cmd = [0x3000000100000001] ∧
     opField 0x3000000100000001 = 0x3 ∧ chField 0x3000000100000001 ≠ 0) := by decide

theorem witness_frd_frdw :
    let s := idleWith .le [] []
    configOk s.cfg = true ∧ s.turns = [] ∧ s.state = .idle ∧ s.busReady = true ∧ s.byteSinkReady = true ∧
    s.wordSinkReady = true ∧ 4294967295 < 2 ^ 32 := by decide

/-- The splitting rows of section 2.3: the rule's example, and a first length that is a multiple of 4. -/
theorem witness_split :
    (let s := idleWith .le [] ([0xAA] ++ [0xBB])
     configOk s.cfg = true ∧ s.turns = [] ∧ s.state = .idle ∧ s.busReady = true ∧ 1 ≤ 15 ∧ 1 + 1 < 2 ^ 32 ∧
     s.src = [0xAA] ++ [0xBB] ∧ ([0xAA] : List Byte).length % 4 ≠ 0 ∧ s.cfg.byteOrder = .le) ∧
    (let s := idleWith .be [] ([0x10, 0x20, 0x30, 0x40] ++ [0x50])
     configOk s.cfg = true ∧ s.turns = [] ∧ s.state = .idle ∧ s.busReady = true ∧ 15 ≤ 15 ∧ 4 + 1 < 2 ^ 32 ∧
     s.src = [0x10, 0x20, 0x30, 0x40] ++ [0x50] ∧ ([0x10, 0x20, 0x30, 0x40] : List Byte).length % 4 = 0) := by decide

/-- The moves at channel 1's window, the first bytes outside window 0, between the steps of `FRD 1` and of `FRDW 1`. -/
theorem witness_other_windows :
    let ts : List Turn := [.block, .otherRead 0x50002000, .block, .otherWrite 0x50000FFC 0xFFFFFFFF, .block]
    let s := { idleWith .le [encode (.frd 1)] [] with turns := ts, device := .oracle [0x12345678] }
    let t := { idleWith .be [encode (.frdw 1)] [] with turns := ts, device := .loopback 2 [0x12345678] }
    (configOk s.cfg = true ∧ s.state = .idle ∧ s.busReady = true ∧ s.byteSinkReady = true ∧ 1 < 2 ^ 32 ∧
     s.cmd = [encode (.frd 1)] ∧ s.turns.count .block = ngroups 1 + 2) ∧
    (configOk t.cfg = true ∧ t.state = .idle ∧ t.busReady = true ∧ t.wordSinkReady = true ∧
     t.cmd = [encode (.frdw 1)] ∧ t.turns.count .block = 1 + 2) ∧
    (∀ u ∈ s.turns, LeavesReadsAlone s.cfg s.device u) ∧ (∀ u ∈ t.turns, LeavesReadsAlone t.cfg t.device u) := by
  refine ⟨by decide, by decide, ?_, ?_⟩
  · simp only [List.forall_mem_cons]
    exact ⟨trivial, by show inWindow _ _ _ = false; decide, trivial, ⟨by decide, trivial⟩, trivial, by simp⟩
  · simp only [List.forall_mem_cons]
    exact ⟨trivial, by show inWindow _ _ _ = false; decide, trivial, ⟨by decide, by show inWindow _ _ _ = false; decide⟩,
      trivial, by simp⟩

theorem witness_unserved_for_ever :
    (let s := { fwrTail .le with src := [0x01, 0x02] }
     configOk s.cfg = true ∧ s.turns = [] ∧ s.state = .busy ∧ latched s = some (.fwr 15 7) ∧
     isWindowBase s.cfg s.areg = true ∧ s.idx.toNat < s.nreg.toNat ∧ s.src.length < gsize 7 s.idx.toNat) ∧
    (let s := { frdTail .le with busReady := false }
     configOk s.cfg = true ∧ s.turns = [] ∧ s.state = .busy ∧ latched s = some (.frd 5) ∧
     isWindowBase s.cfg s.areg = true ∧ s.idx.toNat < s.nreg.toNat ∧ s.busReady = false) ∧
    (let s := { frdwLast .le with wordSinkReady := false }
     configOk s.cfg = true ∧ s.turns = [] ∧ s.state = .busy ∧ latched s = some (.frdw 1) ∧
     isWindowBase s.cfg s.areg = true ∧ s.idx.toNat < s.nreg.toNat ∧ s.wordSinkReady = false) := by decide

/-- The state after a move, where there is one. -/
def moved (u : Turn) (s : State) : State := (nextOf (stepBy u s)).getD State.reset

def frdHeld : State := { idleWith .le [0x2000000000000001] [] with device := .oracle [0x12345678] }

/-- A fair endless execution: `FRD 1` is presented, accepted, makes its read and ends, and the block idles for ever. -/
def fairRun : Nat → State
  | 0 => frdHeld
  | 1 => moved .block frdHeld
  | 2 => moved .block (moved .block frdHeld)
  | _ => moved .block (moved .block (moved .block frdHeld))

theorem witness_fair_execution :
    IsExecution fairRun (fun _ => .block) ∧ Fair fairRun (fun _ => .block) ∧
    (∀ n : Nat, (fun _ => Turn.block : Nat → Turn) n ≠ .reset) ∧ Inv (fairRun 0) ∧
    (fairRun 0).state = .idle ∧ (fairRun 0).cmd = [0x2000000000000001] ∧ acceptCause 0x2000000000000001 = .none ∧
    (fairRun 1).state = .busy := by
  have due : ∀ n, ¬TransferDue (fairRun (n + 3)) ∧ ¬DoneDue (fairRun (n + 3)) ∧ ¬AcceptDue (fairRun (n + 3)) :=
    fun _ => (by decide : ¬TransferDue (fairRun 3) ∧ ¬DoneDue (fairRun 3) ∧ ¬AcceptDue (fairRun 3))
  refine ⟨?_, ⟨?_, ?_, ?_⟩, ?_, by decide, by decide, by decide, by decide, by decide⟩
  · intro n
    match n with
    | 0 => rfl
    | 1 => rfl
    | 2 => rfl
    | _ + 3 => exact (rfl : stepBy .block (fairRun 3) = .next (fairRun 3))
  · exact fun n h => absurd (h (n + 3) (by omega)) (due n).1
  · exact fun n h => absurd (h (n + 3) (by omega)) (due n).2.1
  · exact fun n h => absurd (h (n + 3) (by omega)) (due n).2.2
  · exact fun _ h => nomatch h

/-- The other end of that statement: a descriptor whose acceptance halts, after which the block is given no more turns. -/
def fairHalt : Nat → State
  | 0 => idleWith .le [0x1000001000000000] []
  | 1 => moved .block (idleWith .le [0x1000001000000000] [])
  | _ => moved (.supply []) (moved .block (idleWith .le [0x1000001000000000] []))

/-- The block's one turn, then a host that supplies nothing. -/
def oneBlockTurn : Nat → Turn
  | 0 => .block
  | _ => .supply []

theorem witness_fair_halt :
    IsExecution fairHalt oneBlockTurn ∧ Fair fairHalt oneBlockTurn ∧ (∀ n, oneBlockTurn n ≠ .reset) ∧ Inv (fairHalt 0) ∧
    (fairHalt 0).state = .idle ∧ (fairHalt 0).cmd = [0x1000001000000000] ∧ acceptCause 0x1000001000000000 ≠ .none := by
  have due : ∀ n, ¬TransferDue (fairHalt (n + 2)) ∧ ¬DoneDue (fairHalt (n + 2)) ∧ ¬AcceptDue (fairHalt (n + 2)) :=
    fun _ => (by decide : ¬TransferDue (fairHalt 2) ∧ ¬DoneDue (fairHalt 2) ∧ ¬AcceptDue (fairHalt 2))
  refine ⟨?_, ⟨?_, ?_, ?_⟩, ?_, by decide, by decide, by decide, by decide⟩
  · intro n
    match n with
    | 0 => rfl
    | 1 => rfl
    | _ + 2 => exact (rfl : stepBy (.supply []) (fairHalt 2) = .next (fairHalt 2))
  · exact fun n h => absurd (h (n + 2) (by omega)) (due n).1
  · exact fun n h => absurd (h (n + 2) (by omega)) (due n).2.1
  · exact fun n h => absurd (h (n + 2) (by omega)) (due n).2.2
  · intro n
    match n with
    | 0 => decide
    | _ + 1 => exact fun h => nomatch h

theorem witness_round_trip :
    (let s := { idleWith .le [] [0xDE, 0xAD, 0xBE, 0xEF, 0x01, 0x02, 0x03] with device := .loopback 0 [] }
     configOk s.cfg = true ∧ s.turns = [] ∧ s.state = .idle ∧ s.busReady = true ∧ s.byteSinkReady = true ∧
     s.wordSinkReady = true ∧ s.device = .loopback 0 [] ∧ s.src = [0xDE, 0xAD, 0xBE, 0xEF, 0x01, 0x02, 0x03] ∧
     7 ≤ 4 * s.cfg.fifoDepthWords) ∧
    (let s := { State.resetWith { fifoBase := 0, fifoOffset := 0, windowSize := 4, fifoDepthWords := 1 } with
       device := .loopback 15 [], src := [0x01, 0x02, 0x03, 0x04] }
     configOk s.cfg = true ∧ s.device = .loopback 15 [] ∧ 4 ≤ 4 * s.cfg.fifoDepthWords) := by decide

end Sys2Proof.Tests
end

section
/-! PROOF. What the block's moves do to `STATE`, the command port and the history, and the two rules of 10_state.md that follow:
held descriptors stay outside `IDLE` (R19), and `STATE` changes only by accept, done, halt or reset (R11). -/

namespace Sys2Proof.Machine

/-! ## The accept step (R55) -/

/-- An accept step latches the command, or halts on its channel: `STATE` and the events in either case. -/
theorem acceptOf_state_trace (i : Instr) (s : State) :
    ((acceptOf i s).state = .busy ∧ (acceptOf i s).trace = s.trace ++ [.accept (encode i)]) ∨
    ((acceptOf i s).state = .halted ∧
      (acceptOf i s).trace = s.trace ++ [.accept (encode i), .halt .channelRange]) := by
  cases i with
  | fwr ch len =>
    rcases Nat.lt_or_ge 15 ch with h | h
    · right; simp [acceptOf, acceptCommand_of_gt h]
    · left; simp [acceptOf, acceptCommand_of_le h]
  | frd len => left; simp [acceptOf, acceptCommand_of_le (Nat.zero_le 15)]
  | frdw len => left; simp [acceptOf, acceptCommand_of_le (Nat.zero_le 15)]

@[simp] theorem acceptIllegal_state (d : Descriptor) (s : State) : (acceptIllegal d s).state = .halted := rfl

@[simp] theorem acceptIllegal_trace (d : Descriptor) (s : State) :
    (acceptIllegal d s).trace = s.trace ++ [.accept d, .halt .illegalCmd] := by
  simp [acceptIllegal]

/-! ## The transfer step (R56) -/

/-- The events of a transfer step that is made: the bus access with its stream event (R61, R67, R71). -/
def transferEvents (i : Instr) (s : State) : List Event :=
  let k := gsize s.lenreg.toNat s.idx.toNat
  match i with
  | .fwr _ _ => [.srcTake (s.src.take k), .busWrite s.areg (groupWord s.cfg.byteOrder (s.src.take k))]
  | .frd _ =>
    [.busRead s.areg (portReadWord s.areg s), .dstBytes (leadingBytes s.cfg.byteOrder k (portReadWord s.areg s))]
  | .frdw _ => [.busRead s.areg (portReadWord s.areg s), .dstWord (portReadWord s.areg s)]

@[simp] theorem afterOf_state (i : Instr) (s : State) : (afterOf i s).state = s.state := by cases i <;> rfl

@[simp] theorem afterOf_cmd (i : Instr) (s : State) : (afterOf i s).cmd = s.cmd := by cases i <;> rfl

@[simp] theorem afterOf_trace (i : Instr) (s : State) : (afterOf i s).trace = s.trace ++ transferEvents i s := by
  cases i <;> simp [afterOf, afterFwr, afterFrd, afterFrdw, transferEvents]

theorem accept_notMem_transferEvents (d : Descriptor) (i : Instr) (s : State) : .accept d ∉ transferEvents i s := by
  cases i <;> simp [transferEvents]

/-! ## The block's moves -/

/-- Outside `IDLE` no move of the block touches the command port or emits an `Accept` (R19). -/
theorem BlockMove.keeps_cmd {b t : State} (h : BlockMove b t) (hb : b.state ≠ .idle) :
    t.cmd = b.cmd ∧ ∃ es, t.trace = b.trace ++ es ∧ ∀ d, .accept d ∉ es := by
  cases h with
  | wait => exact ⟨rfl, [], by simp⟩
  | accept d ds i hs => exact absurd hs hb
  | illegal d ds why hs => exact absurd hs hb
  | transfer i => exact ⟨afterOf_cmd i b, _, afterOf_trace i b, fun d => accept_notMem_transferEvents d i b⟩
  | done => exact ⟨rfl, [.done], by simp⟩

/-- The three changes of `STATE` the block makes (R11), each with its events. -/
theorem BlockMove.state_change {b t : State} (h : BlockMove b t) (hne : b.state ≠ t.state) :
    (b.state = .idle ∧ t.state = .busy ∧ ∃ d, t.trace = b.trace ++ [.accept d]) ∨
    (b.state = .busy ∧ t.state = .idle ∧ t.trace = b.trace ++ [.done]) ∨
    (b.state = .idle ∧ t.state = .halted ∧ ∃ d c, t.trace = b.trace ++ [.accept d, .halt c]) := by
  cases h with
  | wait => exact absurd rfl hne
  | accept d ds i hs =>
    rcases acceptOf_state_trace i (takeDescriptor b) with ⟨hst, htr⟩ | ⟨hst, htr⟩
    · exact .inl ⟨hs, hst, _, htr⟩
    · exact .inr (.inr ⟨hs, hst, _, _, htr⟩)
  | illegal d ds why hs => exact .inr (.inr ⟨hs, rfl, d, _, acceptIllegal_trace d (takeDescriptor b)⟩)
  | transfer i => exact absurd (afterOf_state i b).symm hne
  | done hs => exact .inr (.inl ⟨hs, rfl, rfl⟩)

/-! ## The obligations -/

/-- Settles O29: outside `IDLE` the block only transfers, waits or is done, and another agent only adds to the port. -/
theorem descriptorsAreHeldUnlessIdle : Obligations.DescriptorsAreHeldUnlessIdle := by
  unfold Obligations.DescriptorsAreHeldUnlessIdle
  intro s t h hs hr
  obtain ⟨-, ⟨u, ts, hts, -, rfl⟩ | ⟨-, hmove⟩⟩ := step_next h
  · have hu : u ≠ .reset := by simpa [hts] using hr
    obtain ⟨-, -, -, -, -, -, -, -, -, -, htrace, -, hcmd, -⟩ := takeTurn_frame hu (dropTurn s)
    exact ⟨hcmd, [], by simp [htrace]⟩
  · obtain ⟨hcmd, htrace⟩ := hmove.keeps_cmd hs
    exact ⟨by simp [hcmd], htrace⟩

/-- Settles O34: of the other agents only reset touches `STATE`, and the block changes it in three ways. -/
theorem stateChangesOnlyByAcceptDoneHaltReset : Obligations.StateChangesOnlyByAcceptDoneHaltReset := by
  unfold Obligations.StateChangesOnlyByAcceptDoneHaltReset
  refine ⟨⟨rfl, rfl, rfl⟩, fun s t h hne => ?_⟩
  obtain ⟨-, ⟨u, ts, hts, -, rfl⟩ | ⟨-, hmove⟩⟩ := step_next h
  · by_cases hu : u = .reset
    · subst hu
      exact .inr (.inr (.inr ⟨rfl, by simp [hts], rfl⟩))
    · obtain ⟨hstate, -⟩ := takeTurn_frame hu (dropTurn s)
      exact absurd hstate.symm hne
  · rcases hmove.state_change hne with hacc | hdone | hhalt
    · exact .inl hacc
    · exact .inr (.inl hdone)
    · exact .inr (.inr (.inl hhalt))

end Sys2Proof.Machine
end

section
/-! PROOF. Words and their bytes: `pack` and `unpack` as sums and bit fields, and that they are inverse (R28). -/

namespace Sys2Proof.Machine

/-! ## Joining and cutting words, as numbers -/

/-- Joining two bit strings is a sum of numbers. -/
theorem append_toNat {m n : Nat} (x : BitVec m) (y : BitVec n) :
    (x ++ y).toNat = x.toNat * 2 ^ n + y.toNat := by
  rw [BitVec.toNat_append, ← Nat.shiftLeft_add_eq_or_of_lt y.isLt, Nat.shiftLeft_eq]

theorem pack_le_toNat (b0 b1 b2 b3 : Byte) :
    (pack .le b0 b1 b2 b3).toNat = b0.toNat + b1.toNat * 2 ^ 8 + b2.toNat * 2 ^ 16 + b3.toNat * 2 ^ 24 := by
  simp only [pack, append_toNat]
  omega

/-- The two byte orders differ by the order of the four bytes. -/
theorem pack_be (b0 b1 b2 b3 : Byte) : pack .be b0 b1 b2 b3 = pack .le b3 b2 b1 b0 := rfl

theorem unpack_be (w : Word) : unpack .be w = (unpack .le w).reverse := rfl

/-- The bytes of a word in `LE`, as bit fields of its number. -/
theorem unpack_le_toNat (w : Word) :
    (unpack .le w).map BitVec.toNat =
      [w.toNat % 2 ^ 8, w.toNat / 2 ^ 8 % 2 ^ 8, w.toNat / 2 ^ 16 % 2 ^ 8, w.toNat / 2 ^ 24] := by
  have := w.isLt
  simp only [unpack, List.map_cons, List.map_nil, BitVec.extractLsb'_toNat, Nat.shiftRight_eq_div_pow]
  simp only [List.cons.injEq, and_true, true_and]
  omega

/-! ## The two are inverse -/

/-- `unpack` gives the packed bytes back. -/
@[simp] theorem unpack_pack (o : ByteOrder) (b0 b1 b2 b3 : Byte) : unpack o (pack o b0 b1 b2 b3) = [b0, b1, b2, b3] := by
  have le (b0 b1 b2 b3 : Byte) : unpack .le (pack .le b0 b1 b2 b3) = [b0, b1, b2, b3] := by
    refine List.map_injective_iff.mpr (fun _ _ => BitVec.eq_of_toNat_eq) ?_
    rw [unpack_le_toNat, pack_le_toNat]
    simp only [List.map_cons, List.map_nil, List.cons.injEq, and_true]
    have := b0.isLt; have := b1.isLt; have := b2.isLt; have := b3.isLt
    omega
  cases o with
  | le => exact le b0 b1 b2 b3
  | be => rw [pack_be, unpack_be, le]; rfl

/-- Every word is `pack` of the four bytes `unpack` gives. -/
theorem pack_unpack (o : ByteOrder) (w : Word) :
    ∃ b0 b1 b2 b3, unpack o w = [b0, b1, b2, b3] ∧ pack o b0 b1 b2 b3 = w := by
  have le : pack .le (w.extractLsb' 0 8) (w.extractLsb' 8 8) (w.extractLsb' 16 8) (w.extractLsb' 24 8) = w := by
    apply BitVec.eq_of_toNat_eq
    have := w.isLt
    simp only [pack_le_toNat, BitVec.extractLsb'_toNat, Nat.shiftRight_eq_div_pow]
    omega
  cases o with
  | le => exact ⟨_, _, _, _, rfl, le⟩
  | be => exact ⟨_, _, _, _, rfl, le⟩

/-- Settles O7: the formulas as numbers, those of `BE` from `LE` with the bytes reversed, then the two inverse directions. -/
theorem packAndUnpackAreInverse : Obligations.PackAndUnpackAreInverse := by
  unfold Obligations.PackAndUnpackAreInverse
  refine ⟨fun b0 b1 b2 b3 => ⟨pack_le_toNat b0 b1 b2 b3, ?_⟩, fun w => ⟨unpack_le_toNat w, ?_⟩,
    fun o b0 b1 b2 b3 => unpack_pack o b0 b1 b2 b3, pack_unpack⟩
  · rw [pack_be, pack_le_toNat]
    omega
  · rw [unpack_be, List.map_reverse, unpack_le_toNat]
    rfl

end Sys2Proof.Machine
end
section
/-! PROOF. Every bus access of a command is at the address latched when it was accepted (R26). -/

namespace Sys2Proof.Machine

@[simp] theorem afterOf_areg (i : Instr) (s : State) : (afterOf i s).areg = s.areg := by cases i <;> rfl
@[simp] theorem afterOf_chreg (i : Instr) (s : State) : (afterOf i s).chreg = s.chreg := by cases i <;> rfl

/-- A bus write of a transfer step is at `AREG` (R61). -/
theorem busWrite_mem_transferEvents {i : Instr} {s : State} {a : Addr} {w : Word}
    (h : .busWrite a w ∈ transferEvents i s) : a = s.areg := by
  cases i with
  | fwr ch len =>
    obtain ⟨ha, -⟩ : a = s.areg ∧ _ := by simpa [transferEvents] using h
    exact ha
  | frd len => simp [transferEvents] at h
  | frdw len => simp [transferEvents] at h

/-- A bus read of a transfer step is at `AREG`, and the command is a read (R67, R71). -/
theorem busRead_mem_transferEvents {i : Instr} {s : State} {a : Addr} {w : Word} (hl : latched s = some i)
    (h : .busRead a w ∈ transferEvents i s) : a = s.areg ∧ (s.opreg = 0x2 ∨ s.opreg = 0x3) := by
  cases i with
  | fwr ch len => simp [transferEvents] at h
  | frd len =>
    obtain ⟨ha, -⟩ : a = s.areg ∧ _ := by simpa [transferEvents] using h
    exact ⟨ha, .inl (latched_eq_frd.mp hl).1⟩
  | frdw len =>
    obtain ⟨ha, -⟩ : a = s.areg ∧ _ := by simpa [transferEvents] using h
    exact ⟨ha, .inr (latched_eq_frdw.mp hl).1⟩

/-- A move of another agent adds no event but `Reset`. -/
theorem takeTurn_trace (u : Turn) (s : State) :
    (takeTurn u s).trace = s.trace ∨ (takeTurn u s).trace = s.trace ++ [.reset] := by
  by_cases hu : u = .reset
  · subst hu; exact .inr rfl
  · obtain ⟨-, -, -, -, -, -, -, -, -, -, htrace, -⟩ := takeTurn_frame hu s
    exact .inl htrace

/-- Of the block's moves only a transfer step makes a bus access (R58, R32). -/
theorem BlockMove.access {b t : State} {es : List Event} {a : Addr} {w : Word} (h : BlockMove b t)
    (ht : t.trace = b.trace ++ es) (he : .busWrite a w ∈ es ∨ .busRead a w ∈ es) :
    ∃ i, b.state = .busy ∧ latched b = some i ∧ t = afterOf i b ∧ es = transferEvents i b := by
  cases h with
  | wait =>
    obtain rfl : es = [] := by simpa using ht
    simp at he
  | accept d ds i =>
    rcases acceptOf_state_trace i (takeDescriptor b) with ⟨-, htr⟩ | ⟨-, htr⟩ <;>
      · rw [htr] at ht
        obtain rfl := List.append_cancel_left ht
        simp at he
  | illegal d ds why =>
    rw [acceptIllegal_trace] at ht
    obtain rfl := List.append_cancel_left ht
    simp at he
  | transfer i hs hl =>
    rw [afterOf_trace] at ht
    exact ⟨i, hs, hl, rfl, (List.append_cancel_left ht).symm⟩
  | done =>
    obtain rfl := List.append_cancel_left ht
    simp at he

/-- A step that makes a bus access is a transfer step of the latched command. -/
theorem step_access {s t : State} {es : List Event} {a : Addr} {w : Word} (h : step s = .next t)
    (ht : t.trace = s.trace ++ es) (he : .busWrite a w ∈ es ∨ .busRead a w ∈ es) :
    ∃ i, s.state = .busy ∧ latched s = some i ∧ t = afterOf i (dropTurn s) ∧ es = transferEvents i (dropTurn s) := by
  obtain ⟨-, ⟨u, ts, -, -, rfl⟩ | ⟨-, hmove⟩⟩ := step_next h
  · rcases takeTurn_trace u (dropTurn s) with htr | htr
    · obtain rfl : es = [] := by simpa [htr] using ht
      simp at he
    · rw [htr] at ht
      obtain rfl := List.append_cancel_left ht
      simp at he
  · exact hmove.access ht he

/-- Settles O36: an access is made by a transfer step, at `AREG`, which the invariant ties to the channel's window. -/
theorem everyAccessIsAtTheLatchedWindow : Obligations.EveryAccessIsAtTheLatchedWindow := by
  unfold Obligations.EveryAccessIsAtTheLatchedWindow
  rintro s t es ⟨hc, -, -, -, hlatch⟩ h ht
  constructor
  · intro a w he
    obtain ⟨i, hs, hl, rfl, rfl⟩ := step_access h ht he
    obtain ⟨hch, -, harea, -⟩ := hlatch hs
    have ha : a = s.areg := he.elim busWrite_mem_transferEvents fun hr => (busRead_mem_transferEvents hl hr).1
    subst ha
    exact ⟨rfl, harea, hch, harea ▸ windowBase_mod_four hc _, afterOf_areg i _, afterOf_chreg i _⟩
  · intro a w he
    obtain ⟨i, hs, hl, rfl, rfl⟩ := step_access h ht (.inr he)
    obtain ⟨-, hop, harea, -⟩ := hlatch hs
    obtain ⟨rfl, hread⟩ := busRead_mem_transferEvents hl he
    have hch : s.chreg = 0 := by
      rcases hop with hwrite | ⟨-, hch⟩
      · rcases hread with hr | hr <;> simp [hwrite] at hr
      · exact hch
    simpa [hch, windowBase] using harea

end Sys2Proof.Machine
end

section
/-! PROOF. A buffer cut into groups, each packed into a word, and the words' bytes joined again (R51, R61, R67). -/

namespace Sys2Proof.Machine

/-- The words an `FWR` of the buffer `b` writes, one for each group (R61). -/
def groupWords (o : ByteOrder) (b : List Byte) : List Word :=
  (List.range (ngroups b.length)).map fun g => groupWord o (group b g)

@[simp] theorem groupWords_length (o : ByteOrder) (b : List Byte) : (groupWords o b).length = ngroups b.length := by
  simp [groupWords]

theorem group_eq (b : List Byte) (g : Nat) : group b g = (b.drop (4 * g)).take 4 := by
  simp only [group, gsize]
  rw [← List.length_drop, ← List.take_eq_take_min]

theorem padGroup_length {bytes : List Byte} (h : bytes.length ≤ 4) : (padGroup bytes).length = 4 := by
  simp [padGroup]
  omega

/-- The bytes of a group's word are the group's bytes and the padding. -/
theorem unpack_groupWord (o : ByteOrder) {bytes : List Byte} (h : bytes.length ≤ 4) :
    unpack o (groupWord o bytes) = padGroup bytes := by
  have hp := padGroup_length h
  simp only [groupWord]
  generalize padGroup bytes = p at hp
  match p, hp with
  | [p0, p1, p2, p3], _ => exact unpack_pack o p0 p1 p2 p3

/-- Cutting the padded group to what is left of the buffer drops the padding and nothing else. -/
theorem take_padGroup_group (b : List Byte) (g : Nat) :
    (padGroup (group b g)).take (b.length - 4 * g) = (b.drop (4 * g)).take 4 := by
  rw [group_eq, padGroup, List.take_append]
  have h : ((b.drop (4 * g)).take 4).length = min 4 (b.length - 4 * g) := by simp
  rw [List.take_of_length_le (by omega), List.append_right_eq_self, List.take_replicate, List.replicate_eq_nil_iff]
  omega

/-- The padded groups up to the `n`th, joined and cut to the buffer's length, are the buffer's first `4n` bytes. -/
theorem take_flatMap_padGroup (b : List Byte) (n : Nat) :
    ((List.range n).flatMap fun g => padGroup (group b g)).take b.length = b.take (4 * n) := by
  have hlen (g : Nat) : (padGroup (group b g)).length = 4 := padGroup_length (by simp [group_eq])
  induction n with
  | zero => simp
  | succ n ih =>
    rw [List.range_succ, List.flatMap_append, List.take_append, ih, Nat.mul_succ, List.take_add]
    simp [List.length_flatMap, hlen, Nat.mul_comm n 4, take_padGroup_group]

/-- The bytes of the words written, cut to the buffer's length, are the buffer. -/
theorem groupWords_bytes (o : ByteOrder) (b : List Byte) :
    ((groupWords o b).flatMap (unpack o)).take b.length = b := by
  have hword (g : Nat) : unpack o (groupWord o (group b g)) = padGroup (group b g) :=
    unpack_groupWord o (by simp [group_eq])
  simp only [groupWords, List.flatMap_map, hword]
  rw [take_flatMap_padGroup, List.take_of_length_le]
  simp only [ngroups]
  omega

/-- The leading bytes of the first `n` words are those words' bytes cut to the length (R68). -/
theorem flatMap_leadingBytes (o : ByteOrder) (len : Nat) (f : Nat → Word) (n : Nat) :
    ((List.range n).flatMap fun g => leadingBytes o (gsize len g) (f g)) =
      ((List.range n).flatMap fun g => unpack o (f g)).take len := by
  have hlead (g : Nat) : leadingBytes o (gsize len g) (f g) = (unpack o (f g)).take (len - 4 * g) := by
    rw [leadingBytes, gsize, List.take_eq_take_iff]
    simp [Nat.min_comm]
  induction n with
  | zero => simp
  | succ n ih =>
    rw [List.range_succ, List.flatMap_append, List.flatMap_append, List.take_append, ih]
    simp [List.length_flatMap, hlead, Nat.mul_comm n 4]

end Sys2Proof.Machine
end
section
/-! PROOF. What a sequence of events delivers (R18). -/

namespace Sys2Proof.Machine

@[simp] theorem deliveredBytes_append (es fs : List Event) :
    deliveredBytes (es ++ fs) = deliveredBytes es ++ deliveredBytes fs := by simp [deliveredBytes]

@[simp] theorem deliveredWords_append (es fs : List Event) :
    deliveredWords (es ++ fs) = deliveredWords es ++ deliveredWords fs := by simp [deliveredWords]

@[simp] theorem deliveredBytes_accept (d : Descriptor) (es : List Event) :
    deliveredBytes (.accept d :: es) = deliveredBytes es := rfl

@[simp] theorem deliveredWords_accept (d : Descriptor) (es : List Event) :
    deliveredWords (.accept d :: es) = deliveredWords es := rfl

@[simp] theorem deliveredBytes_done (es : List Event) : deliveredBytes (.done :: es) = deliveredBytes es := rfl

@[simp] theorem deliveredWords_done (es : List Event) : deliveredWords (.done :: es) = deliveredWords es := rfl

@[simp] theorem deliveredBytes_nil : deliveredBytes [] = [] := rfl

@[simp] theorem deliveredWords_nil : deliveredWords [] = [] := rfl

@[simp] theorem deliveredBytes_fwrEvents (o : ByteOrder) (a : Addr) (b : List Byte) :
    deliveredBytes (fwrEvents o a b) = [] := by
  simp [deliveredBytes, fwrEvents, List.flatMap_assoc]

@[simp] theorem deliveredWords_fwrEvents (o : ByteOrder) (a : Addr) (b : List Byte) :
    deliveredWords (fwrEvents o a b) = [] := by
  simp [deliveredWords, fwrEvents, List.flatMap_assoc]

/-- `FRD` delivers the bytes of the words read, cut to its length (R68). -/
theorem deliveredBytes_frdEvents (o : ByteOrder) (a : Addr) {len : Nat} {ws : List Word} (h : ws.length = ngroups len) :
    deliveredBytes (frdEvents o a len ws) = (ws.flatMap (unpack o)).take len := by
  have hws : ws = (List.range (ngroups len)).map fun g => ws.getD g 0 := by
    apply List.ext_getElem <;> simp +contextual [h]
  conv_rhs => rw [hws, List.flatMap_map]
  rw [← flatMap_leadingBytes]
  simp [deliveredBytes, frdEvents, List.flatMap_assoc]

/-- `FRDW` delivers the words read (R72). -/
@[simp] theorem deliveredWords_frdwEvents (a : Addr) (ws : List Word) : deliveredWords (frdwEvents a ws) = ws := by
  simp [deliveredWords, frdwEvents, List.flatMap_assoc]

end Sys2Proof.Machine
end
section
/-! PROOF. The parts of a command as functions of the command, and that its descriptor decodes to it (R41, R49). -/

namespace Sys2Proof.Machine

/-- The operation code of a command (R43). -/
@[simp] def opOf : Instr → BitVec 4
  | .fwr _ _ => 0x1
  | .frd _ => 0x2
  | .frdw _ => 0x3

/-- The channel a command uses (R55). -/
@[simp] def channelOf : Instr → Nat
  | .fwr ch _ => ch
  | .frd _ => readChannel
  | .frdw _ => readChannel

/-- The length operand of a command. -/
@[simp] def lengthOf : Instr → Nat
  | .fwr _ len => len
  | .frd len => len
  | .frdw len => len

/-- How many bus accesses a command makes (R55). -/
@[simp] def accessesOf : Instr → Nat
  | .fwr _ len => ngroups len
  | .frd len => ngroups len
  | .frdw len => len

section
variable {i : Instr} (h : i.wellFormed = true)
include h

theorem channelOf_lt : channelOf i < 2 ^ 8 := by
  cases i <;> simp_all [Instr.wellFormed, channelFits]

theorem lengthOf_lt : lengthOf i < 2 ^ 32 := by
  cases i <;> simp_all [Instr.wellFormed, lengthFits]

theorem accessesOf_lt : accessesOf i < 2 ^ 32 := by
  have := lengthOf_lt h
  cases i <;> simp [ngroups] at this ⊢ <;> omega

theorem encode_toNat : (encode i).toNat = (opOf i).toNat * 2 ^ 60 + channelOf i * 2 ^ 32 + lengthOf i := by
  have hc := channelOf_lt h
  have hl := lengthOf_lt h
  cases i <;> simp [encode] at hc hl ⊢ <;> omega

theorem opField_encode : opField (encode i) = opOf i := by
  apply BitVec.eq_of_toNat_eq
  have hc := channelOf_lt h
  have hl := lengthOf_lt h
  rw [opField_toNat, encode_toNat h]
  omega

theorem rsvField_encode : rsvField (encode i) = 0 := by
  apply BitVec.eq_of_toNat_eq
  have hc := channelOf_lt h
  have hl := lengthOf_lt h
  rw [rsvField_toNat, encode_toNat h]
  change _ = 0
  omega

theorem chField_encode_toNat : (chField (encode i)).toNat = channelOf i := by
  have hc := channelOf_lt h
  have hl := lengthOf_lt h
  rw [chField_toNat, encode_toNat h]
  omega

theorem lenField_encode_toNat : (lenField (encode i)).toNat = lengthOf i := by
  have hc := channelOf_lt h
  have hl := lengthOf_lt h
  rw [lenField_toNat, encode_toNat h]
  omega

/-- A command whose fields fit is what its descriptor decodes to (R49). -/
theorem decode_encode : decode (encode i) = .cmd i := by
  have hch := chField_encode_toNat h
  have hlen := lenField_encode_toNat h
  cases i with
  | fwr ch len => simp_all [decode, opField_encode h, rsvField_encode h]
  | frd len =>
    have hzero : chField (encode (.frd len)) = 0 := BitVec.eq_of_toNat_eq hch
    simp_all [decode, opField_encode h, rsvField_encode h]
  | frdw len =>
    have hzero : chField (encode (.frdw len)) = 0 := BitVec.eq_of_toNat_eq hch
    simp_all [decode, opField_encode h, rsvField_encode h]

end

end Sys2Proof.Machine
end

section
/-! PROOF. A whole command with no other agent moving: the state at each of its accesses, and the run to its `Done`
(R55 to R57, R62, R68, R72). -/

namespace Sys2Proof.Machine

/-! ## The state a command starts from, passes through and ends in -/

/-- The state after the accept step of command `i` with a channel in range (R55). -/
def accepted (i : Instr) (s : State) : State :=
  latchCommand (opOf i) (channelOf i) (lengthOf i) (accessesOf i) (BitVec.ofNat 32 (windowBase s.cfg (channelOf i)))
    (emit [.accept (encode i)] (takeDescriptor s))

theorem acceptOf_eq_accepted {i : Instr} (h : channelOf i ≤ 15) (s : State) :
    acceptOf i (takeDescriptor s) = accepted i s := by
  cases i <;> exact acceptCommand_of_le h

/-- The state in which access number `n` of command `i`, accepted from `s`, is due. -/
def atAccess (i : Instr) (s : State) : Nat → State
  | 0 => accepted i s
  | n + 1 => afterOf i (atAccess i s n)

/-- The state after the done step of command `i`, accepted from `s` (R57). -/
def completed (i : Instr) (s : State) : State := finishCommand (atAccess i s (accessesOf i))

@[simp] theorem afterOf_cfg (i : Instr) (s : State) : (afterOf i s).cfg = s.cfg := by cases i <;> rfl
@[simp] theorem afterOf_nreg (i : Instr) (s : State) : (afterOf i s).nreg = s.nreg := by cases i <;> rfl
@[simp] theorem afterOf_lenreg (i : Instr) (s : State) : (afterOf i s).lenreg = s.lenreg := by cases i <;> rfl
@[simp] theorem afterOf_idx (i : Instr) (s : State) : (afterOf i s).idx = s.idx + 1 := by cases i <;> rfl
@[simp] theorem afterOf_busReady (i : Instr) (s : State) : (afterOf i s).busReady = s.busReady := by cases i <;> rfl
@[simp] theorem afterOf_byteSinkReady (i : Instr) (s : State) : (afterOf i s).byteSinkReady = s.byteSinkReady := by
  cases i <;> rfl
@[simp] theorem afterOf_wordSinkReady (i : Instr) (s : State) : (afterOf i s).wordSinkReady = s.wordSinkReady := by
  cases i <;> rfl
@[simp] theorem afterOf_turns (i : Instr) (s : State) : (afterOf i s).turns = s.turns := by cases i <;> rfl
@[simp] theorem latched_afterOf (i : Instr) (s : State) : latched (afterOf i s) = latched s := by cases i <;> rfl

/-- What a transfer step keeps is at every access what the accept step made it. -/
theorem atAccess_keeps {α : Type} {i : Instr} (f : State → α) (hf : ∀ u, f (afterOf i u) = f u) (s : State) (n : Nat) :
    f (atAccess i s n) = f (accepted i s) := by
  induction n with
  | zero => rfl
  | succ n ih => exact (hf _).trans ih

section
variable (i : Instr) (s : State) (n : Nat)

@[simp] theorem atAccess_cfg : (atAccess i s n).cfg = s.cfg := atAccess_keeps State.cfg (afterOf_cfg i) s n
@[simp] theorem atAccess_state : (atAccess i s n).state = .busy := atAccess_keeps State.state (afterOf_state i) s n
@[simp] theorem atAccess_cmd : (atAccess i s n).cmd = s.cmd.drop 1 := atAccess_keeps State.cmd (afterOf_cmd i) s n
@[simp] theorem atAccess_turns : (atAccess i s n).turns = s.turns := atAccess_keeps State.turns (afterOf_turns i) s n
@[simp] theorem atAccess_busReady : (atAccess i s n).busReady = s.busReady :=
  atAccess_keeps State.busReady (afterOf_busReady i) s n
@[simp] theorem atAccess_byteSinkReady : (atAccess i s n).byteSinkReady = s.byteSinkReady :=
  atAccess_keeps State.byteSinkReady (afterOf_byteSinkReady i) s n
@[simp] theorem atAccess_wordSinkReady : (atAccess i s n).wordSinkReady = s.wordSinkReady :=
  atAccess_keeps State.wordSinkReady (afterOf_wordSinkReady i) s n
@[simp] theorem atAccess_areg : (atAccess i s n).areg = BitVec.ofNat 32 (windowBase s.cfg (channelOf i)) :=
  atAccess_keeps State.areg (afterOf_areg i) s n

theorem atAccess_idx : (atAccess i s n).idx = BitVec.ofNat 32 n := by
  induction n with
  | zero => rfl
  | succ n ih => rw [atAccess, afterOf_idx, ih, BitVec.ofNat_add]; rfl

/-- The events up to access number `n`: the accept step's, then each transfer step's. -/
theorem atAccess_trace : (atAccess i s n).trace =
    s.trace ++ .accept (encode i) :: (List.range n).flatMap fun k => transferEvents i (atAccess i s k) := by
  induction n with
  | zero => rfl
  | succ n ih => simp [atAccess, ih, List.range_succ]

@[simp] theorem completed_cfg : (completed i s).cfg = s.cfg := atAccess_cfg i s _
@[simp] theorem completed_state : (completed i s).state = .idle := rfl
@[simp] theorem completed_cmd : (completed i s).cmd = s.cmd.drop 1 := atAccess_cmd i s _
@[simp] theorem completed_turns : (completed i s).turns = s.turns := atAccess_turns i s _
@[simp] theorem completed_busReady : (completed i s).busReady = s.busReady := atAccess_busReady i s _
@[simp] theorem completed_byteSinkReady : (completed i s).byteSinkReady = s.byteSinkReady := atAccess_byteSinkReady i s _
@[simp] theorem completed_wordSinkReady : (completed i s).wordSinkReady = s.wordSinkReady := atAccess_wordSinkReady i s _
@[simp] theorem completed_device : (completed i s).device = (atAccess i s (accessesOf i)).device := rfl

theorem completed_trace : (completed i s).trace = s.trace ++ .accept (encode i) ::
    ((List.range (accessesOf i)).flatMap (fun k => transferEvents i (atAccess i s k)) ++ [.done]) := by
  simp [completed, atAccess_trace]

end

/-- The length register holds the operand, and the counters the numbers they stand for. -/
theorem atAccess_lenreg_toNat {i : Instr} (hw : i.wellFormed = true) (s : State) (n : Nat) :
    (atAccess i s n).lenreg.toNat = lengthOf i := by
  rw [atAccess_keeps State.lenreg (afterOf_lenreg i)]
  simpa [accepted] using lengthOf_lt hw

theorem atAccess_nreg_toNat {i : Instr} (hw : i.wellFormed = true) (s : State) (n : Nat) :
    (atAccess i s n).nreg.toNat = accessesOf i := by
  rw [atAccess_keeps State.nreg (afterOf_nreg i)]
  simpa [accepted] using accessesOf_lt hw

theorem atAccess_idx_toNat {i : Instr} (hw : i.wellFormed = true) (s : State) {n : Nat} (hn : n ≤ accessesOf i) :
    (atAccess i s n).idx.toNat = n := by
  rw [atAccess_idx, BitVec.toNat_ofNat, Nat.mod_eq_of_lt (hn.trans_lt (accessesOf_lt hw))]

theorem latched_atAccess {i : Instr} (hw : i.wellFormed = true) (s : State) (n : Nat) :
    latched (atAccess i s n) = some i := by
  rw [atAccess_keeps latched (latched_afterOf i)]
  have hc := channelOf_lt hw
  have hl := lengthOf_lt hw
  cases i with
  | fwr ch len => exact latched_eq_fwr.mpr ⟨rfl, by simpa [accepted] using hc, by simpa [accepted] using hl⟩
  | frd len => exact latched_eq_frd.mpr ⟨rfl, by simpa [accepted] using hl⟩
  | frdw len => exact latched_eq_frdw.mpr ⟨rfl, by simpa [accepted] using hl⟩

/-! ## The run -/

/-- The idle block has command `i` at its port, with a channel in range and no other agent to move. -/
structure Presented (i : Instr) (s : State) : Prop where
  config : configOk s.cfg = true
  alone : s.turns = []
  idle : s.state = .idle
  port : s.cmd.head? = some (encode i)
  fits : i.wellFormed = true
  channel : channelOf i ≤ 15

theorem run_one (s : State) : run 1 s = step s := by
  simp only [run]
  cases step s <;> rfl

/-- A run is continued from where its first part leads. -/
theorem run_add_of_run {m n : Nat} {s t : State} (h : run m s = .next t) : run (m + n) s = run n t := by
  induction m generalizing s with
  | zero => cases h; rw [Nat.zero_add]
  | succ m ih =>
    rw [Nat.add_right_comm]
    cases hs : step s with
    | next u =>
      simp only [run, hs] at h ⊢
      exact ih h
    | fault f => simp [run, hs] at h
    | refused r => simp [run, hs] at h

theorem run_succ_of_run {n : Nat} {s t : State} (h : run n s = .next t) : run (n + 1) s = step t :=
  (run_add_of_run h).trans (run_one t)

section
variable {i : Instr} {s : State} (h : Presented i s)
include h

theorem Presented.step_accept : step s = .next (accepted i s) := by
  obtain ⟨ds, hm⟩ : ∃ ds, s.cmd = encode i :: ds := by
    simpa [List.head?_eq_some_iff] using h.port
  rw [step_idle_cmd h.config (.inl h.alone) h.idle hm (decode_encode h.fits), dropTurn_of_nil h.alone, exec_eq,
    commandStep_idle h.fits (s := takeDescriptor s) h.idle, acceptOf_eq_accepted h.channel]

/-- The step at access number `n` is the due step of the latched command. -/
theorem Presented.step_atAccess (n : Nat) :
    step (atAccess i s n) = busyStep (transferOf i) (atAccess i s n) := by
  have hl := latched_atAccess h.fits s n
  have ht : (atAccess i s n).turns = [] := by simp [h.alone]
  rw [step_busy (by simpa using h.config) (.inl ht) (by simp) hl, dropTurn_of_nil ht, exec_eq,
    commandStep_busy h.fits (by simp) hl]

theorem Presented.step_transfer {n : Nat} (hn : n < accessesOf i) (hr : servedOf i (atAccess i s n) = true) :
    step (atAccess i s n) = .next (atAccess i s (n + 1)) := by
  have hwin : isWindowBase s.cfg (atAccess i s n).areg = true :=
    (isWindowBase_iff _ _).mpr ⟨_, h.channel, by simpa using windowAddr_toNat h.config h.channel⟩
  rw [h.step_atAccess, busyStep_transfer, transferOf_eq]
  · simp only [transferWhen, atAccess_cfg, hwin, hr, if_true, atAccess]
  · rwa [atAccess_idx_toNat h.fits s hn.le, atAccess_nreg_toNat h.fits]

theorem Presented.step_done : step (atAccess i s (accessesOf i)) = .next (completed i s) := by
  rw [h.step_atAccess, busyStep_done, completed]
  apply BitVec.eq_of_toNat_eq
  rw [atAccess_idx_toNat h.fits s le_rfl, atAccess_nreg_toNat h.fits]

/-- A command whose every access is served runs alone to its `Done`. -/
theorem Presented.run_completed (hr : ∀ n < accessesOf i, servedOf i (atAccess i s n) = true) :
    run (accessesOf i + 2) s = .next (completed i s) := by
  have hrun : ∀ n ≤ accessesOf i, run (n + 1) s = .next (atAccess i s n) := by
    intro n hn
    induction n with
    | zero => exact (run_succ_of_run rfl).trans h.step_accept
    | succ n ih => exact (run_succ_of_run (ih (by omega))).trans (h.step_transfer hn (hr n hn))
  exact (run_succ_of_run (hrun _ le_rfl)).trans h.step_done

end

/-! ## The write (R61, R62) -/

/-- The bytes an `FWR` leaves on the source stream before access number `n`. -/
theorem atAccess_fwr_src {ch len : Nat} (hw : (Instr.fwr ch len).wellFormed = true) (s : State) {n : Nat}
    (hn : n ≤ ngroups len) : (atAccess (.fwr ch len) s n).src = s.src.drop (min (4 * n) len) := by
  induction n with
  | zero => simp [atAccess, accepted]
  | succ n ih =>
    have hidx := atAccess_idx_toNat hw s (n := n) (by simp; omega)
    have hlen := atAccess_lenreg_toNat hw s n
    simp only [atAccess, afterOf, afterFwr, advance_src, portWrite_src, takeSource_src, hidx, hlen, lengthOf,
      ih (by omega), List.drop_drop, gsize]
    congr 1
    omega

section
variable {ch : Nat} {b extra : List Byte} {s : State} {n : Nat}
  (hw : (Instr.fwr ch b.length).wellFormed = true) (hsrc : s.src = b ++ extra) (hn : n < ngroups b.length)
include hw hsrc hn

theorem fwr_take_group : (atAccess (.fwr ch b.length) s n).src.take (gsize b.length n) = group b n := by
  have hg : 4 * n < b.length := by simp only [ngroups] at hn; omega
  rw [atAccess_fwr_src hw s hn.le, hsrc, Nat.min_eq_left hg.le, List.drop_append_of_le_length hg.le,
    List.take_append_of_le_length (by simp [gsize]), group]

theorem fwr_served (hbus : s.busReady = true) : servedOf (.fwr ch b.length) (atAccess (.fwr ch b.length) s n) = true := by
  simp [servedOf, hbus, atAccess_idx_toNat hw s (n := n) hn.le, atAccess_lenreg_toNat hw s n, atAccess_fwr_src hw s hn.le,
    hsrc, gsize]
  omega

theorem fwr_transferEvents : transferEvents (.fwr ch b.length) (atAccess (.fwr ch b.length) s n) =
    [.srcTake (group b n),
     .busWrite (BitVec.ofNat 32 (windowBase s.cfg ch)) (groupWord s.cfg.byteOrder (group b n))] := by
  simp [transferEvents, atAccess_idx_toNat hw s (n := n) hn.le, atAccess_lenreg_toNat hw s n, fwr_take_group hw hsrc hn]

theorem fwr_device_succ : (atAccess (.fwr ch b.length) s (n + 1)).device =
    deviceWrite s.cfg (atAccess (.fwr ch b.length) s n).device (BitVec.ofNat 32 (windowBase s.cfg ch))
      (groupWord s.cfg.byteOrder (group b n)) := by
  simp [atAccess, afterOf, afterFwr, atAccess_idx_toNat hw s (n := n) hn.le, atAccess_lenreg_toNat hw s n,
    fwr_take_group hw hsrc hn]

end

/-- An `FWR` with its buffer on the source stream runs alone to its `Done` (R62). -/
theorem run_fwr {ch : Nat} {b extra : List Byte} {s : State} (h : Presented (.fwr ch b.length) s)
    (hsrc : s.src = b ++ extra) (hbus : s.busReady = true) :
    run (ngroups b.length + 2) s = .next (completed (.fwr ch b.length) s) :=
  h.run_completed fun _ hn => fwr_served h.fits hsrc hn hbus

/-- The events of an `FWR` that runs alone (R62). -/
theorem completed_fwr_trace {ch : Nat} {b extra : List Byte} {s : State}
    (hw : (Instr.fwr ch b.length).wellFormed = true) (hsrc : s.src = b ++ extra) :
    (completed (.fwr ch b.length) s).trace = s.trace ++ .accept (encode (.fwr ch b.length)) ::
      (fwrEvents s.cfg.byteOrder (BitVec.ofNat 32 (windowBase s.cfg ch)) b ++ [.done]) := by
  rw [completed_trace, fwrEvents, accessesOf]
  congr 3
  exact List.flatMap_congr fun n hn => fwr_transferEvents hw hsrc (List.mem_range.mp hn)

/-! ## The reads (R67, R68, R71, R72) -/

/-- The read commands, whose accesses are `PortRead` (R66, R70). -/
def IsRead : Instr → Prop
  | .fwr _ _ => False
  | .frd _ | .frdw _ => True

theorem channelOf_of_read {i : Instr} (hi : IsRead i) : channelOf i = 0 := by
  cases i with
  | fwr => exact hi.elim
  | frd | frdw => rfl

theorem afterOf_device_of_read {i : Instr} (hi : IsRead i) (s : State) :
    (afterOf i s).device = (deviceRead s.cfg s.device s.draws s.areg).dev := by
  cases i with
  | fwr => exact hi.elim
  | frd | frdw => rfl

theorem afterOf_draws_of_read {i : Instr} (hi : IsRead i) (s : State) :
    (afterOf i s).draws = (deviceRead s.cfg s.device s.draws s.areg).draws := by
  cases i with
  | fwr => exact hi.elim
  | frd | frdw => rfl

/-- The answers the environment gives to `n` reads of the read channel from `s` on, made one after the other (R36, R68). -/
abbrev answersFrom (s : State) (n : Nat) : List Word :=
  answersOf s.cfg s.device s.draws (BitVec.ofNat 32 (windowBase s.cfg 0)) n

@[simp] theorem answersOf_length (cfg : Config) (dev : Device) (draws : Nat) (a : Addr) (n : Nat) :
    (answersOf cfg dev draws a n).length = n := by
  induction n generalizing dev draws with
  | zero => rfl
  | succ n ih => simp [answersOf, ih]

section
variable {i : Instr} (hi : IsRead i) (s : State)
include hi

theorem answersFrom_atAccess (k n : Nat) :
    answersFrom (atAccess i s k) n = (List.range n).map fun j => portReadWord (atAccess i s k).areg (atAccess i s (k + j)) := by
  have ha (k : Nat) : (atAccess i s k).areg = BitVec.ofNat 32 (windowBase s.cfg 0) := by
    rw [atAccess_areg, channelOf_of_read hi]
  induction n generalizing k with
  | zero => rfl
  | succ n ih =>
    have hnext := ih (k + 1)
    simp only [answersFrom, atAccess_cfg, ha] at hnext ⊢
    rw [atAccess, afterOf_device_of_read hi, afterOf_draws_of_read hi, ha, atAccess_cfg] at hnext
    rw [List.range_succ_eq_map, answersOf, hnext]
    simp [portReadWord, Function.comp_def, Nat.add_assoc, Nat.add_comm 1]

/-- The word of access number `n` is the environment's answer to the read of that number. -/
theorem portReadWord_atAccess {k n : Nat} (hk : k < n) :
    portReadWord (atAccess i s k).areg (atAccess i s k) = (answersFrom s n).getD k 0 := by
  have h : answersFrom s n = answersFrom (atAccess i s 0) n := rfl
  rw [h, answersFrom_atAccess hi]
  simp [hk]

end

theorem frd_transferEvents {len : Nat} (hw : (Instr.frd len).wellFormed = true) (s : State) {k : Nat}
    (hk : k < ngroups len) : transferEvents (.frd len) (atAccess (.frd len) s k) =
      [.busRead (BitVec.ofNat 32 (windowBase s.cfg 0)) ((answersFrom s (ngroups len)).getD k 0),
       .dstBytes (leadingBytes s.cfg.byteOrder (gsize len k) ((answersFrom s (ngroups len)).getD k 0))] := by
  simp only [transferEvents]
  rw [portReadWord_atAccess (i := .frd len) trivial s hk, atAccess_lenreg_toNat hw, atAccess_idx_toNat hw s hk.le,
    atAccess_areg, atAccess_cfg]
  rfl

/-- The events of an `FRD` that runs alone (R68). -/
theorem completed_frd_trace {len : Nat} (hw : (Instr.frd len).wellFormed = true) (s : State) :
    (completed (.frd len) s).trace = s.trace ++ .accept (encode (.frd len)) ::
      (frdEvents s.cfg.byteOrder (BitVec.ofNat 32 (windowBase s.cfg 0)) len (answersFrom s (ngroups len)) ++ [.done]) := by
  rw [completed_trace, frdEvents, accessesOf]
  congr 3
  exact List.flatMap_congr fun k hk => frd_transferEvents hw s (List.mem_range.mp hk)

/-- The events of an `FRDW` that runs alone (R72). -/
theorem completed_frdw_trace (n : Nat) (s : State) :
    (completed (.frdw n) s).trace = s.trace ++ .accept (encode (.frdw n)) ::
      (frdwEvents (BitVec.ofNat 32 (windowBase s.cfg 0)) (answersFrom s n) ++ [.done]) := by
  have h : answersFrom s n = answersFrom (atAccess (.frdw n) s 0) n := rfl
  rw [completed_trace, h, answersFrom_atAccess (i := .frdw n) trivial, frdwEvents, List.flatMap_map]
  simp [transferEvents]

/-- An `FRD` whose bus and byte stream are served runs alone to its `Done` (R68). -/
theorem run_frd {len : Nat} {s : State} (h : Presented (.frd len) s) (hbus : s.busReady = true)
    (hsink : s.byteSinkReady = true) : run (ngroups len + 2) s = .next (completed (.frd len) s) :=
  h.run_completed fun n _ => by simp [servedOf, hbus, hsink]

/-- An `FRDW` whose bus and word stream are served runs alone to its `Done` (R72). -/
theorem run_frdw {n : Nat} {s : State} (h : Presented (.frdw n) s) (hbus : s.busReady = true)
    (hsink : s.wordSinkReady = true) : run (n + 2) s = .next (completed (.frdw n) s) :=
  h.run_completed fun n _ => by simp [servedOf, hbus, hsink]

end Sys2Proof.Machine
end

section
/-! PROOF. The round trip through `LOOPBACK(c)`: the words written are the words read back (R38, R39). -/

namespace Sys2Proof.Machine

theorem channel_le (c : Fin numChannels) : c.val ≤ 15 := Nat.le_of_lt_succ c.isLt

/-! ## The queue under writes and reads (R38) -/

theorem deviceWrite_loopback {cfg : Config} {c : Fin numChannels} {q : List Word} {a : Addr} (w : Word)
    (ha : a.toNat = windowBase cfg c.val) (hq : q.length < cfg.fifoDepthWords) :
    deviceWrite cfg (.loopback c q) a w = .loopback c (q ++ [w]) := by
  simp [deviceWrite, ha, hq]

theorem deviceRead_loopback {cfg : Config} {c : Fin numChannels} {a : Addr} (w : Word) (q : List Word) (draws : Nat)
    (ha : a.toNat = windowBase cfg 0) :
    deviceRead cfg (.loopback c (w :: q)) draws a = ⟨w, .loopback c q, draws⟩ := by
  simp [deviceRead, ha]

/-- A read at the base of window 0 drops the oldest word, if there is one. -/
theorem deviceRead_loopback_dev {cfg : Config} {c : Fin numChannels} {a : Addr} (q : List Word) (draws : Nat)
    (ha : a.toNat = windowBase cfg 0) : (deviceRead cfg (.loopback c q) draws a).dev = .loopback c q.tail := by
  cases q <;> simp [deviceRead, ha]

/-- As many reads as there are words in the queue are answered with the queue. -/
theorem answersOf_loopback {cfg : Config} {c : Fin numChannels} {a : Addr} (q : List Word) (draws : Nat)
    (ha : a.toNat = windowBase cfg 0) : answersOf cfg (.loopback c q) draws a q.length = q := by
  induction q with
  | nil => rfl
  | cons w q ih => simp [answersOf, deviceRead_loopback w q draws ha, ih]

/-- An `FWR` on the loopback channel leaves the words of its groups in the queue, as long as there is room. -/
theorem atAccess_fwr_loopback {c : Fin numChannels} {b : List Byte} {s : State} (hc : configOk s.cfg = true)
    (hw : (Instr.fwr c.val b.length).wellFormed = true) (hsrc : s.src = b) (hdev : s.device = .loopback c [])
    (hroom : ngroups b.length ≤ s.cfg.fifoDepthWords) {n : Nat} (hn : n ≤ ngroups b.length) :
    (atAccess (.fwr c.val b.length) s n).device = .loopback c ((groupWords s.cfg.byteOrder b).take n) := by
  induction n with
  | zero => simpa [atAccess, accepted] using hdev
  | succ n ih =>
    have hword : (groupWords s.cfg.byteOrder b).take (n + 1) =
        (groupWords s.cfg.byteOrder b).take n ++ [groupWord s.cfg.byteOrder (group b n)] := by
      rw [List.take_succ_eq_append_getElem (by simpa using hn)]
      simp [groupWords]
    rw [fwr_device_succ hw (extra := []) (by simpa using hsrc) hn, ih (by omega), hword]
    exact deviceWrite_loopback _ (windowAddr_toNat hc (channel_le c)) (by simp; omega)

/-- An `FRD` takes the oldest words off the queue, one at each access. -/
theorem atAccess_frd_loopback {c : Fin numChannels} {q : List Word} {len : Nat} {s : State} (hc : configOk s.cfg = true)
    (hdev : s.device = .loopback c q) (n : Nat) :
    (atAccess (.frd len) s n).device = .loopback c (q.drop n) := by
  induction n with
  | zero => simpa [atAccess, accepted] using hdev
  | succ n ih =>
    rw [atAccess, afterOf_device_of_read (i := .frd len) trivial, ih, deviceRead_loopback_dev, List.tail_drop]
    simpa using windowAddr_toNat hc (Nat.zero_le 15)

/-! ## The write and then a read -/

/-- R39's setting: an `FWR` of the buffer on the loopback channel and then command `j` at the port, the bus served, and room
for the buffer in the empty queue. -/
structure RoundTrip (c : Fin numChannels) (b : List Byte) (j : Instr) (s : State) : Prop where
  config : configOk s.cfg = true
  alone : s.turns = []
  idle : s.state = .idle
  port : s.cmd = [encode (.fwr c.val b.length), encode j]
  source : s.src = b
  queue : s.device = .loopback c []
  bus : s.busReady = true
  room : b.length ≤ 4 * s.cfg.fifoDepthWords

section
variable {c : Fin numChannels} {b : List Byte} {j : Instr} {s : State} (h : RoundTrip c b j s)
include h

/-- A buffer for which the queue has room is far below the bound of the `LEN` field (R7). -/
theorem RoundTrip.length_lt : b.length < 2 ^ 32 := by
  obtain ⟨-, -, -, hwin, hspace⟩ := (configOk_iff s.cfg).mp h.config
  have := h.room
  omega

theorem RoundTrip.write : Presented (.fwr c.val b.length) s where
  config := h.config
  alone := h.alone
  idle := h.idle
  port := by simp [h.port]
  fits := by
    have := h.length_lt
    have := channel_le c
    simp [Instr.wellFormed, channelFits, lengthFits]
    omega
  channel := channel_le c

/-- When the write has ended command `j` is at the port. -/
theorem RoundTrip.read (hj : j.wellFormed = true) (hread : IsRead j) :
    Presented j (completed (.fwr c.val b.length) s) where
  config := by simpa using h.config
  alone := by simpa using h.alone
  idle := rfl
  port := by simp [h.port]
  fits := hj
  channel := (channelOf_of_read hread).trans_le (Nat.zero_le 15)

theorem RoundTrip.run_write : run (ngroups b.length + 2) s = .next (completed (.fwr c.val b.length) s) :=
  run_fwr (extra := []) h.write (by simp [h.source]) h.bus

theorem RoundTrip.queue_after_write :
    (completed (.fwr c.val b.length) s).device = .loopback c (groupWords s.cfg.byteOrder b) := by
  have hroom : ngroups b.length ≤ s.cfg.fifoDepthWords := by
    have := h.room
    simp only [ngroups]
    omega
  rw [completed_device, accessesOf, atAccess_fwr_loopback h.config h.write.fits h.source h.queue hroom le_rfl,
    List.take_of_length_le (by simp)]

/-- The reads after the write are answered with the words written. -/
theorem RoundTrip.answers :
    answersFrom (completed (.fwr c.val b.length) s) (ngroups b.length) = groupWords s.cfg.byteOrder b := by
  rw [answersFrom, completed_cfg, h.queue_after_write, ← groupWords_length s.cfg.byteOrder b]
  exact answersOf_loopback _ _ (windowAddr_toNat h.config (Nat.zero_le 15))

theorem RoundTrip.trace_after_write :
    (completed (.fwr c.val b.length) s).trace = s.trace ++ .accept (encode (.fwr c.val b.length)) ::
      (fwrEvents s.cfg.byteOrder (BitVec.ofNat 32 (windowBase s.cfg c.val)) b ++ [.done]) :=
  completed_fwr_trace (extra := []) h.write.fits (by simp [h.source])

end

/-- The write and then `FRD` of the buffer's length: the buffer is delivered and the queue is empty. -/
theorem RoundTrip.frd {c : Fin numChannels} {b : List Byte} {s : State} (h : RoundTrip c b (.frd b.length) s)
    (hsink : s.byteSinkReady = true) :
    ∃ t es, run (ngroups b.length + 2 + (ngroups b.length + 2)) s = .next t ∧
      t.state = .idle ∧ t.trace = s.trace ++ es ∧ es.getLast? = some .done ∧
      deliveredBytes es = b ∧ t.device = .loopback c [] := by
  have hread := h.read (by simpa [Instr.wellFormed, lengthFits] using h.length_lt) trivial
  refine ⟨completed (.frd b.length) (completed (.fwr c.val b.length) s), _,
    (run_add_of_run h.run_write).trans (run_frd hread (by simp [h.bus]) (by simp [hsink])), rfl,
    by rw [completed_frd_trace hread.fits, h.trace_after_write, List.append_assoc], ?_, ?_, ?_⟩
  · simp [List.getLast?_cons, List.getLast?_append]
  · simp [h.answers, deliveredBytes_frdEvents, groupWords_bytes]
  · rw [completed_device, atAccess_frd_loopback hread.config h.queue_after_write]
    simp

/-- The write and then `FRDW` of as many words as the buffer has groups: the words' bytes, cut to the length, are the buffer. -/
theorem RoundTrip.frdw {c : Fin numChannels} {b : List Byte} {s : State} (h : RoundTrip c b (.frdw (ngroups b.length)) s)
    (hsink : s.wordSinkReady = true) :
    ∃ t es, run (ngroups b.length + 2 + (ngroups b.length + 2)) s = .next t ∧
      t.state = .idle ∧ t.trace = s.trace ++ es ∧ es.getLast? = some .done ∧
      ((deliveredWords es).flatMap (unpack s.cfg.byteOrder)).take b.length = b := by
  have hread := h.read (by simpa [Instr.wellFormed, lengthFits] using accessesOf_lt h.write.fits) trivial
  refine ⟨completed (.frdw (ngroups b.length)) (completed (.fwr c.val b.length) s), _,
    (run_add_of_run h.run_write).trans (run_frdw hread (by simp [h.bus]) (by simp [hsink])), rfl,
    by rw [completed_frdw_trace, h.trace_after_write, List.append_assoc], ?_, ?_⟩
  · simp [List.getLast?_cons, List.getLast?_append]
  · simp [h.answers, groupWords_bytes]

/-- Settles O46: the write leaves the words of its groups in the queue, a read is answered with them, and their bytes, cut to the
length, are the buffer. -/
theorem loopbackRoundTripReproducesTheBuffer : Obligations.LoopbackRoundTripReproducesTheBuffer := by
  unfold Obligations.LoopbackRoundTripReproducesTheBuffer
  intro s c b hc ht hs hbus hbytes hwords hdev hsrc hroom
  have h (j : Instr) : RoundTrip c b j { s with cmd := [encode (.fwr c.val b.length), encode j] } :=
    ⟨hc, ht, hs, rfl, hsrc, hdev, hbus, hroom⟩
  exact ⟨(h _).frd hbytes, (h _).frdw hwords⟩

end Sys2Proof.Machine
end

section
/-! PROOF. Decoding as a function of a descriptor's fields (R49), and what follows from it: which descriptor is which command,
that `encode` is the inverse, the opcode rows as masks (R43), and the illegal descriptors (R44). -/

namespace Sys2Proof.Machine

/-! ## Tests on the fields, as numbers (R41) -/

theorem opField_eq_iff (d : Descriptor) (op : BitVec 4) : opField d = op ↔ d.toNat / 2 ^ 60 = op.toNat := by
  rw [← BitVec.toNat_inj, opField_toNat]

theorem rsvField_eq_zero_iff (d : Descriptor) : rsvField d = 0 ↔ d.toNat / 2 ^ 40 % 2 ^ 20 = 0 := by
  rw [← BitVec.toNat_inj, rsvField_toNat]; rfl

theorem chField_eq_zero_iff (d : Descriptor) : chField d = 0 ↔ d.toNat / 2 ^ 32 % 2 ^ 8 = 0 := by
  rw [← BitVec.toNat_inj, chField_toNat]; rfl

/-! ## Decoding (R49) -/

@[simp] theorem Decoded.instr?_cmd (i : Instr) : (Decoded.cmd i).instr? = some i := rfl
@[simp] theorem Decoded.instr?_illegal (why : Illegal) : (Decoded.illegal why).instr? = none := rfl

theorem Decoded.instr?_eq_some_iff {x : Decoded} {i : Instr} : x.instr? = some i ↔ x = .cmd i := by
  cases x <;> simp

theorem Decoded.instr?_eq_none_iff {x : Decoded} : x.instr? = none ↔ ∃ why, x = .illegal why := by
  cases x <;> simp

/-- The spec's case distinction: a read with a nonzero channel joins the last case, where `decode` names its own reason. -/
theorem decode_instr? (d : Descriptor) : (decode d).instr? =
    if rsvField d ≠ 0 then none
    else if opField d = 0x1 then some (.fwr (chField d).toNat (lenField d).toNat)
    else if opField d = 0x2 ∧ chField d = 0 then some (.frd (lenField d).toNat)
    else if opField d = 0x3 ∧ chField d = 0 then some (.frdw (lenField d).toNat)
    else none := by
  by_cases hch : chField d = 0
  · simp only [decode, apply_ite Decoded.instr?, Decoded.instr?_cmd, Decoded.instr?_illegal, hch, and_true, if_true]
  · simp only [decode, apply_ite Decoded.instr?, Decoded.instr?_cmd, Decoded.instr?_illegal, hch, and_false, if_false,
      ite_self]

/-- The inversion of `decode`: the descriptors of a command are those whose fields are its parts. -/
theorem decode_eq_cmd_iff {d : Descriptor} {i : Instr} :
    decode d = .cmd i ↔ rsvField d = 0 ∧ opField d = opOf i ∧
      (chField d).toNat = channelOf i ∧ (lenField d).toNat = lengthOf i := by
  have hch : (chField d).toNat = readChannel ↔ chField d = 0 := BitVec.toNat_inj (y := 0)
  rw [← Decoded.instr?_eq_some_iff, decode_instr?]
  cases i with
  | fwr ch len => split_ifs <;> simp_all
  | frd len => split_ifs <;> simp_all
  | frdw len => split_ifs <;> simp_all

/-- A descriptor that decodes to a command is the one that command encodes to. -/
theorem encode_of_decode {d : Descriptor} {i : Instr} (h : decode d = .cmd i) : encode i = d := by
  obtain ⟨hrsv, hop, hch, hlen⟩ := decode_eq_cmd_iff.mp h
  rw [rsvField_eq_zero_iff] at hrsv
  rw [opField_eq_iff] at hop
  rw [chField_toNat] at hch
  rw [lenField_toNat] at hlen
  apply BitVec.eq_of_toNat_eq
  rw [encode_toNat (decode_wellFormed h)]
  omega

/-- Settles O2: the case distinction and the sums with the fields as numbers, and the two inverse directions from the
inversion of `decode`. -/
theorem decodeAndEncodeAreInverse : Obligations.DecodeAndEncodeAreInverse := by
  unfold Obligations.DecodeAndEncodeAreInverse
  refine ⟨fun d => ?_, fun ch len hch hlen => ?_, fun i hi => decode_encode hi,
    fun d i h => ⟨decode_wellFormed h, encode_of_decode h⟩⟩
  · simp only [decode_instr?, ne_eq, opField_eq_iff, rsvField_eq_zero_iff, chField_eq_zero_iff, chField_toNat, lenField_toNat]
    rfl
  · have hwrite : (Instr.fwr ch len).wellFormed = true := by
      simpa [Instr.wellFormed, channelFits, lengthFits] using ⟨hch, hlen⟩
    have hread : lengthFits len = true := by simpa [lengthFits] using hlen
    exact ⟨encode_toNat hwrite, by simpa using encode_toNat (i := .frd len) hread,
      by simpa using encode_toNat (i := .frdw len) hread⟩

/-! ## The opcode map (R43) -/

/-- Agreeing with a pattern on the bits from `k` up, as numbers. -/
theorem and_highMask_eq_iff (d p : Descriptor) (k : Nat) :
    d &&& BitVec.allOnes 64 <<< k = p ↔ d.toNat / 2 ^ k * 2 ^ k = p.toNat := by
  have hle : d.toNat / 2 ^ k * 2 ^ k < 2 ^ 64 := (Nat.div_mul_le_self _ _).trans_lt d.isLt
  rw [← BitVec.shiftLeft_ushiftRight, ← BitVec.toNat_inj, BitVec.toNat_shiftLeft, BitVec.toNat_ushiftRight,
    Nat.shiftLeft_eq, Nat.shiftRight_eq_div_pow, Nat.mod_eq_of_lt hle]

/-- The row of `FWR` fixes `RSV` and `OP`. -/
theorem and_writeMask_eq_iff (d : Descriptor) :
    d &&& 0xFFFFFF0000000000 = 0x1000000000000000 ↔ rsvField d = 0 ∧ opField d = 0x1 := by
  have hmask : (0xFFFFFF0000000000 : Descriptor) = BitVec.allOnes 64 <<< 40 := rfl
  have hpattern : (0x1000000000000000 : Descriptor).toNat = 2 ^ 60 := rfl
  have hop : (0x1 : BitVec 4).toNat = 1 := rfl
  rw [hmask, and_highMask_eq_iff, rsvField_eq_zero_iff, opField_eq_iff, hpattern, hop]
  omega

/-- The rows of the reads fix `RSV`, `OP` and `CH`. -/
theorem and_readMask_eq_iff (d : Descriptor) (op : BitVec 4) :
    d &&& 0xFFFFFFFF00000000 = BitVec.ofNat 64 (op.toNat * 2 ^ 60) ↔
      rsvField d = 0 ∧ opField d = op ∧ chField d = 0 := by
  have hmask : (0xFFFFFFFF00000000 : Descriptor) = BitVec.allOnes 64 <<< 32 := rfl
  have hop := op.isLt
  rw [hmask, and_highMask_eq_iff, rsvField_eq_zero_iff, opField_eq_iff, chField_eq_zero_iff, BitVec.toNat_ofNat]
  omega

/-- The row a descriptor matches is told by its operation code. -/
theorem opField_of_holds {d : Descriptor} :
    (fwrRow.holds d = true → opField d = 0x1) ∧ (frdRow.holds d = true → opField d = 0x2) ∧
    (frdwRow.holds d = true → opField d = 0x3) :=
  ⟨fun h => ((and_writeMask_eq_iff d).mp (of_decide_eq_true h)).2,
    fun h => ((and_readMask_eq_iff d 0x2).mp (of_decide_eq_true h)).2.1,
    fun h => ((and_readMask_eq_iff d 0x3).mp (of_decide_eq_true h)).2.1⟩

/-- Settles O3: a row's mask and the inversion of `decode` ask the same of the fields, and two rows ask for different codes. -/
theorem opcodeRowsSelectTheCommand : Obligations.OpcodeRowsSelectTheCommand := by
  unfold Obligations.OpcodeRowsSelectTheCommand
  refine ⟨fun d => ?_, fun d => ?_, fun d => ?_, fun d => ?_⟩
  · rw [and_writeMask_eq_iff]
    simp [decode_eq_cmd_iff]
  · refine Iff.trans ?_ (and_readMask_eq_iff d 0x2).symm
    simp [decode_eq_cmd_iff, ← BitVec.toNat_inj]
  · refine Iff.trans ?_ (and_readMask_eq_iff d 0x3).symm
    simp [decode_eq_cmd_iff, ← BitVec.toNat_inj]
  · obtain ⟨hfwr, hfrd, hfrdw⟩ := opField_of_holds (d := d)
    simp only [opcodeMap, List.filter_cons, List.filter_nil]
    split_ifs <;> simp_all

/-! ## Illegal descriptors (R44) -/

/-- The three reasons for which a descriptor is illegal. -/
theorem exists_decode_eq_illegal_iff (d : Descriptor) :
    (∃ why, decode d = .illegal why) ↔
      rsvField d ≠ 0 ∨ (opField d ≠ 0x1 ∧ opField d ≠ 0x2 ∧ opField d ≠ 0x3) ∨
      (chField d ≠ 0 ∧ (opField d = 0x2 ∨ opField d = 0x3)) := by
  rw [← Decoded.instr?_eq_none_iff, decode_instr?]
  split_ifs <;> simp_all
  tauto

theorem unknownOp_iff (op : BitVec 4) : (op ≠ 0x1 ∧ op ≠ 0x2 ∧ op ≠ 0x3) ↔ (op = 0x0 ∨ 0x4 ≤ op.toNat) := by
  revert op
  decide

/-- Settles O4: the illegal set from the case distinction of `decode`, and the two halts from the accept steps. -/
theorem illegalDescriptorHaltsBeforeAnyEffect : Obligations.IllegalDescriptorHaltsBeforeAnyEffect := by
  unfold Obligations.IllegalDescriptorHaltsBeforeAnyEffect
  refine ⟨fun d => ?_, fun s d ds why hc ht hs hm hd => ?_, fun s d ds hc ht hs hm hop hrsv hch => ?_⟩
  · rw [exists_decode_eq_illegal_iff, unknownOp_iff]
    tauto
  · rw [step_idle_illegal hc ht hs hm hd]
    simp [acceptIllegal, raiseHalt, emit, takeDescriptor, dropTurn, hm]
  · have hd : decode d = .cmd (.fwr (chField d).toNat (lenField d).toNat) :=
      decode_eq_cmd_iff.mpr ⟨hrsv, hop, rfl, rfl⟩
    refine ⟨hd, ?_⟩
    rw [step_idle_cmd hc ht hs hm hd, exec_eq, commandStep_idle (decode_wellFormed hd) (s := takeDescriptor (dropTurn s)) hs,
      acceptOf, acceptCommand_of_gt hch, encode_of_decode hd]
    simp [raiseHalt, emit, takeDescriptor, dropTurn, hm]

end Sys2Proof.Machine
end

section
/-! PROOF. The accept step of each command and the halt on its channel (R52, R55), the done step, and a command that makes no
access (R57). -/

namespace Sys2Proof.Machine

theorem fwr_wellFormed {ch len : Nat} (hch : ch < 2 ^ 8) (hlen : len < 2 ^ 32) : (Instr.fwr ch len).wellFormed = true := by
  simpa [Instr.wellFormed, channelFits, lengthFits] using ⟨hch, hlen⟩

theorem windowBase_readChannel (cfg : Config) : windowBase cfg readChannel = cfg.fifoBase + cfg.fifoOffset := by
  simp [windowBase]

/-! ## The accept step (R55) -/

section
variable {i : Instr} {s : State} (hw : i.wellFormed = true) (hs : s.state = .idle)
include hw hs

theorem exec_idle : exec i s = .next (acceptOf i s) := by
  rw [exec_eq, commandStep_idle hw hs]

/-- With a channel in range the accept step latches the command's parts, at its window. -/
theorem exec_idle_of_channel_le (hc : channelOf i ≤ 15) :
    exec i s = .next (latchCommand (opOf i) (channelOf i) (lengthOf i) (accessesOf i)
      (BitVec.ofNat 32 (windowBase s.cfg (channelOf i))) (emit [.accept (encode i)] s)) := by
  rw [exec_idle hw hs]
  cases i <;> exact congrArg _ (acceptCommand_of_le hc)

end

/-- With a channel out of range accepting an `FWR` halts, whatever its length (R52, R75). -/
theorem exec_fwr_of_channel_gt {ch len : Nat} {s : State} (hs : s.state = .idle) (hgt : 15 < ch) (hch : ch < 2 ^ 8)
    (hlen : len < 2 ^ 32) : exec (.fwr ch len) s = .next { s with
      state := .halted, cause := .channelRange, info := encode (.fwr ch len)
      trace := s.trace ++ [.accept (encode (.fwr ch len)), .halt .channelRange] } := by
  rw [exec_idle (fwr_wellFormed hch hlen) hs, acceptOf, acceptCommand_of_gt hgt]
  simp [raiseHalt, emit]

/-- Settles O11: the address is the window base, which the configuration check keeps aligned and below `2^32`. -/
theorem addressIsTheWindowBaseOrTheCommandHalts : Obligations.AddressIsTheWindowBaseOrTheCommandHalts := by
  unfold Obligations.AddressIsTheWindowBaseOrTheCommandHalts
  refine ⟨fun cfg ch hc hch => ?_, fun _ _ => fifoAddr_of_gt, fun cfg => ?_,
    fun _ _ _ => exec_fwr_of_channel_gt⟩
  · have haddr := windowAddr_toNat hc hch
    exact ⟨_, fifoAddr_of_le hch, haddr, by rw [haddr, windowBase_mod_four hc]⟩
  · rw [fifoAddr_of_le (Nat.zero_le 15), windowBase_readChannel]

/-- Settles O12: each command's parts latched by the accept step in range, and the two halts. -/
theorem acceptStepLatchesOrHalts : Obligations.AcceptStepLatchesOrHalts := by
  unfold Obligations.AcceptStepLatchesOrHalts
  obtain ⟨-, hillegal, -⟩ := illegalDescriptorHaltsBeforeAnyEffect
  refine ⟨fun s ch len hs hch hlen => ?_, fun _ _ _ => exec_fwr_of_channel_gt,
    fun s len hs hlen => ?_, fun s len hs hlen => ?_, hillegal⟩
  · exact exec_idle_of_channel_le (fwr_wellFormed (by omega) hlen) hs hch
  · rw [exec_idle_of_channel_le (i := .frd len) (decide_eq_true hlen) hs (Nat.zero_le 15), channelOf, windowBase_readChannel]
    rfl
  · rw [exec_idle_of_channel_le (i := .frdw len) (decide_eq_true hlen) hs (Nat.zero_le 15), channelOf, windowBase_readChannel]
    rfl

/-! ## The done step (R57) -/

theorem exec_busy_done {i : Instr} {s : State} (hw : i.wellFormed = true) (hs : s.state = .busy)
    (hl : latched s = some i) (hi : s.idx = s.nreg) : exec i s = .next (finishCommand s) := by
  rw [exec_eq, commandStep_busy hw hs hl, busyStep_done hi]

/-- A latched command is read back from the registers, wherever it was latched. -/
theorem latched_latchCommand {i : Instr} (hw : i.wellFormed = true) (n : Nat) (a : Addr) (s : State) :
    latched (latchCommand (opOf i) (channelOf i) (lengthOf i) n a s) = some i :=
  latched_atAccess hw s 0

/-- A command with no access to make is accepted and done in two steps. -/
theorem exec_accept_done {i : Instr} {s : State} (hw : i.wellFormed = true) (hs : s.state = .idle)
    (hc : channelOf i ≤ 15) (hn : accessesOf i = 0) :
    ∃ t u, exec i s = .next t ∧ exec i t = .next u ∧ u.state = .idle ∧
      u.trace = s.trace ++ [.accept (encode i), .done] ∧ u.device = s.device ∧ u.src = s.src := by
  refine ⟨_, _, exec_idle_of_channel_le hw hs hc, exec_busy_done hw rfl (latched_latchCommand hw _ _ _) ?_, ?_⟩
  · rw [latchCommand_idx, latchCommand_nreg, hn]; rfl
  · simp

/-- Settles O16: the done step of the latched command, and length 0 as no access to make. -/
theorem doneStepEndsTheCommand : Obligations.DoneStepEndsTheCommand := by
  unfold Obligations.DoneStepEndsTheCommand
  refine ⟨fun _ _ => exec_busy_done, fun s i hs hi => ?_⟩
  rcases hi with ⟨ch, hch, rfl⟩ | rfl | rfl
  · exact exec_accept_done (fwr_wellFormed (by omega) (by decide)) hs hch rfl
  · exact exec_accept_done (by decide) hs (Nat.zero_le 15) rfl
  · exact exec_accept_done (by decide) hs (Nat.zero_le 15) rfl

end Sys2Proof.Machine
end

section
/-! PROOF. The `FWR` transfer step (R61), a whole `FWR` (R62), and a buffer written by two of them (R65). -/

namespace Sys2Proof.Machine

/-! ## The transfer step (R56, R61) -/

/-- A command in progress with an access left makes its transfer step when it is served. -/
theorem exec_busy_transfer {i : Instr} {s : State} (hw : i.wellFormed = true) (hs : s.state = .busy)
    (hl : latched s = some i) (hi : s.idx.toNat < s.nreg.toNat) (hwin : isWindowBase s.cfg s.areg = true)
    (hr : servedOf i s = true) : exec i s = .next (afterOf i s) := by
  rw [exec_eq, commandStep_busy hw hs hl, busyStep_transfer hi, transferOf_eq]
  simp only [transferWhen, hwin, hr, if_true]

/-- What the transfer step of an `FWR` changes. -/
theorem afterFwr_eq (s : State) : afterFwr s =
    (let k := gsize s.lenreg.toNat s.idx.toNat
     let w := groupWord s.cfg.byteOrder (s.src.take k)
     { s with
       src := s.src.drop k, wreg := w, idx := s.idx + 1
       device := deviceWrite s.cfg s.device s.areg w
       trace := s.trace ++ [.srcTake (s.src.take k), .busWrite s.areg w] }) := by
  simp [afterFwr, advance, portWrite, takeSource]

theorem one_le_gsize {len g : Nat} (h : g < ngroups len) : 1 ≤ gsize len g := by
  simp only [ngroups, gsize] at h ⊢
  omega

/-- Settles O13: the transfer step of a served `FWR` with a group left, whose taken bytes number `k`, so that the padding of
`groupWord` is the statement's. -/
theorem fwrTransferStep : Obligations.FwrTransferStep := by
  unfold Obligations.FwrTransferStep
  intro s ch len hlen hch hc hs hop hchreg hlenreg hareg hnreg hidx hbus hsrc k bytes p w
  have hk : gsize s.lenreg.toNat s.idx.toNat = k := by rw [hlenreg, gsize]
  have hbytes : bytes.length = k := List.length_take_of_le hsrc
  have hp : p = padGroup bytes := by simp only [p, padGroup, hbytes]
  have hserved : servedOf (.fwr ch len) s = true := by
    simp only [servedOf, hbus, hk, Bool.true_and]
    exact decide_eq_true hsrc
  have hstep : exec (.fwr ch len) s = .next (afterFwr s) :=
    exec_busy_transfer (fwr_wellFormed (by omega) hlen) hs (latched_eq_fwr.mpr ⟨hop, hchreg, hlenreg⟩)
      (by rwa [hnreg]) ((isWindowBase_iff _ _).mpr ⟨ch, hch, hareg⟩) hserved
  refine ⟨one_le_gsize hidx, ?_, ?_⟩
  · rw [hp, padGroup_length (hbytes.trans_le (Nat.min_le_left _ _))]
  · rw [hstep, afterFwr_eq, hk]
    simp only [w, hp]
    rfl

/-! ## A whole command (R62) -/

/-- A command that does not halt leaves `CAUSE` as it was (R15, R77). -/
@[simp] theorem completed_cause (i : Instr) (s : State) : (completed i s).cause = s.cause :=
  atAccess_keeps State.cause (fun _ => by cases i <;> rfl) s _

theorem completed_fwr_draws (ch len : Nat) (s : State) : (completed (.fwr ch len) s).draws = s.draws :=
  atAccess_keeps State.draws (fun _ => rfl) s _

/-- An `FWR` takes its buffer and nothing more. -/
theorem completed_fwr_src {ch : Nat} {b extra : List Byte} {s : State}
    (hw : (Instr.fwr ch b.length).wellFormed = true) (hsrc : s.src = b ++ extra) :
    (completed (.fwr ch b.length) s).src = extra := by
  have hall : min (4 * ngroups b.length) b.length = b.length := by simp only [ngroups]; omega
  calc (completed (.fwr ch b.length) s).src
    _ = s.src.drop (min (4 * ngroups b.length) b.length) := atAccess_fwr_src hw s le_rfl
    _ = extra := by rw [hall, hsrc, List.drop_left]

/-- Settles O40: the run of an `FWR` alone, its events, and what it takes and leaves. -/
theorem fwrWritesTheBuffer : Obligations.FwrWritesTheBuffer := by
  unfold Obligations.FwrWritesTheBuffer
  intro s ch b extra rest hc ht hs hcause hbus hch hlen hcmd hsrc
  have h : Presented (.fwr ch b.length) s :=
    ⟨hc, ht, hs, by rw [hcmd, List.head?_cons], fwr_wellFormed (by omega) hlen, hch⟩
  exact ⟨completed (.fwr ch b.length) s, run_fwr h hsrc hbus, completed_fwr_trace h.fits hsrc, completed_state _ _,
    (completed_cause _ _).trans hcause, completed_fwr_src h.fits hsrc,
    by rw [completed_cmd, hcmd, List.drop_one, List.tail_cons], completed_cfg _ _, completed_fwr_draws _ _ _⟩

/-! ## The accesses of an `FWR`'s events (R31) -/

@[simp] theorem busAccesses_append (es fs : List Event) :
    busAccesses (es ++ fs) = busAccesses es ++ busAccesses fs := by simp [busAccesses]

@[simp] theorem busAccesses_accept (d : Descriptor) (es : List Event) :
    busAccesses (.accept d :: es) = busAccesses es := rfl

@[simp] theorem busAccesses_done (es : List Event) : busAccesses (.done :: es) = busAccesses es := rfl

@[simp] theorem busAccesses_nil : busAccesses [] = [] := rfl

@[simp] theorem busAccesses_fwrEvents (o : ByteOrder) (a : Addr) (b : List Byte) :
    busAccesses (fwrEvents o a b) = (groupWords o b).map (.write a) := by
  simp [busAccesses, fwrEvents, groupWords, List.flatMap_assoc, List.map_eq_flatMap]

/-! ## A buffer cut in two (R65) -/

/-- Cut at a multiple of 4, the groups of a buffer are those of its parts, so the words are. -/
theorem groupWords_append {x : List Byte} (hx : x.length % 4 = 0) (o : ByteOrder) (y : List Byte) :
    groupWords o (x ++ y) = groupWords o x ++ groupWords o y := by
  have hn : 4 * ngroups x.length = x.length := by simp only [ngroups]; omega
  have hsum : ngroups (x ++ y).length = ngroups x.length + ngroups y.length := by
    simp only [ngroups, List.length_append]; omega
  have hfirst (g : Nat) (hg : g < ngroups x.length) : group (x ++ y) g = group x g := by
    rw [group_eq, group_eq, List.drop_append_of_le_length (by omega), List.take_append_of_le_length (by simp; omega)]
  have hsecond (g : Nat) : group (x ++ y) (ngroups x.length + g) = group y g := by
    rw [group_eq, group_eq, Nat.mul_add, hn, List.drop_append, List.drop_of_length_le (by omega),
      List.nil_append, Nat.add_sub_cancel_left]
  simp only [groupWords, hsum, List.range_add, List.map_append, List.map_map]
  exact congrArg₂ (· ++ ·)
    (List.map_congr_left fun g hg => congrArg (groupWord o) (hfirst g (List.mem_range.mp hg)))
    (List.map_congr_left fun g _ => congrArg (groupWord o) (hsecond g))

/-- The group after a buffer's full groups is its tail. -/
theorem group_tail (b : List Byte) : group b (b.length / 4) = b.drop (4 * (b.length / 4)) := by
  rw [group_eq, List.take_of_length_le (by simp; omega)]

theorem groupWords_getElem?_tail {b : List Byte} (h : b.length % 4 ≠ 0) (o : ByteOrder) :
    (groupWords o b)[b.length / 4]? = some (groupWord o (b.drop (4 * (b.length / 4)))) := by
  have hlt : b.length / 4 < ngroups b.length := by simp only [ngroups]; omega
  simp [groupWords, hlt, group_tail]

/-- All events of an `FWR` of the buffer `b` that runs alone, from `Accept` to `Done` (R62). -/
def fwrRunEvents (cfg : Config) (ch : Nat) (b : List Byte) : List Event :=
  .accept (encode (.fwr ch b.length)) ::
    (fwrEvents cfg.byteOrder (BitVec.ofNat 32 (windowBase cfg ch)) b ++ [.done])

@[simp] theorem busAccesses_fwrRunEvents (cfg : Config) (ch : Nat) (b : List Byte) :
    busAccesses (fwrRunEvents cfg ch b) =
      (groupWords cfg.byteOrder b).map (.write (BitVec.ofNat 32 (windowBase cfg ch))) := by
  simp [fwrRunEvents]

@[simp] theorem getLast?_fwrRunEvents (cfg : Config) (ch : Nat) (b : List Byte) :
    (fwrRunEvents cfg ch b).getLast? = some .done := by
  rw [fwrRunEvents, ← List.cons_append, List.getLast?_concat]

/-- When a command has ended, the one held behind it is at the port of the idle block. -/
theorem Presented.next {i j : Instr} {s : State} {rest : List Descriptor} (h : Presented i s)
    (hcmd : s.cmd = encode i :: encode j :: rest) (hj : j.wellFormed = true) (hch : channelOf j ≤ 15) :
    Presented j (completed i s) where
  config := by simpa using h.config
  alone := by simpa using h.alone
  idle := completed_state i s
  port := by simp [hcmd]
  fits := hj
  channel := hch

/-- Two `FWR`s held at the port run one after the other, each making its own events. -/
theorem run_fwr_fwr {ch : Nat} {x y : List Byte} {s : State} (h : Presented (.fwr ch x.length) s)
    (hcmd : s.cmd = [encode (.fwr ch x.length), encode (.fwr ch y.length)])
    (hy : (Instr.fwr ch y.length).wellFormed = true) (hbus : s.busReady = true) (hsrc : s.src = x ++ y) :
    ∃ t, run (ngroups x.length + 2 + (ngroups y.length + 2)) s = .next t ∧ t.state = .idle ∧
      t.trace = s.trace ++ (fwrRunEvents s.cfg ch x ++ fwrRunEvents s.cfg ch y) := by
  have hnext : Presented (.fwr ch y.length) (completed (.fwr ch x.length) s) := h.next hcmd hy h.channel
  have hleft : (completed (.fwr ch x.length) s).src = y ++ [] := by
    rw [completed_fwr_src h.fits hsrc, List.append_nil]
  refine ⟨completed (.fwr ch y.length) (completed (.fwr ch x.length) s),
    (run_add_of_run (run_fwr h hsrc hbus)).trans (run_fwr hnext hleft (by simpa using hbus)), completed_state _ _, ?_⟩
  rw [completed_fwr_trace hnext.fits hleft, completed_fwr_trace h.fits hsrc, completed_cfg, List.append_assoc]
  rfl

/-- Settles O45: the accesses are the writes of the words of `x` and of `y` against those of `x ++ y`; at a multiple of 4 the
groups of `x ++ y` are those of its parts, elsewhere the tail of `x` is a group of its own. -/
theorem splitWritesAgreeAtMultiplesOfFour : Obligations.SplitWritesAgreeAtMultiplesOfFour := by
  unfold Obligations.SplitWritesAgreeAtMultiplesOfFour
  intro s ch x y hc ht hs hbus hch hlen hsrc
  have hfits (len : Nat) (h : len ≤ x.length + y.length) : (Instr.fwr ch len).wellFormed = true :=
    fwr_wellFormed (by omega) (by omega)
  have hsplit : Presented (.fwr ch x.length)
      { s with cmd := [encode (.fwr ch x.length), encode (.fwr ch y.length)] } :=
    ⟨hc, ht, hs, rfl, hfits _ (Nat.le_add_right ..), hch⟩
  have hjoined : Presented (.fwr ch (x ++ y).length) { s with cmd := [encode (.fwr ch (x ++ y).length)] } :=
    ⟨hc, ht, hs, rfl, hfits _ List.length_append.le, hch⟩
  have hall : s.src = (x ++ y) ++ [] := by rw [hsrc, List.append_nil]
  obtain ⟨t, hrun, hidle, htrace⟩ := run_fwr_fwr hsplit rfl (hfits _ (Nat.le_add_left ..)) hbus hsrc
  rw [← List.length_append]
  refine ⟨t, _, fwrRunEvents s.cfg ch x ++ fwrRunEvents s.cfg ch y, fwrRunEvents s.cfg ch (x ++ y), hrun,
    run_fwr hjoined hall hbus, hidle, completed_state _ _, htrace, completed_fwr_trace hjoined.fits hall,
    by simp, by simp, ?_⟩
  simp only [busAccesses_append, busAccesses_fwrRunEvents, ← List.map_append]
  refine ⟨?_, ?_, ?_, fun hx => ?_, fun hx => ?_, fun hx hy ho => ?_⟩
  · simp [ngroups]
  · simp [ngroups]
  · rw [List.map_append, groupWords, groupWords, List.map_map, List.map_map]
    rfl
  · rw [groupWords_append hx]
  · have hlt : x.length / 4 < (groupWords s.cfg.byteOrder x).length := by
      rw [groupWords_length, ngroups]; omega
    have htail : (x.drop (4 * (x.length / 4))).length = x.length % 4 := by
      rw [List.length_drop]; omega
    rw [List.getElem?_map, List.getElem?_append_left hlt, groupWords_getElem?_tail hx,
      Option.map_some, groupWord, padGroup, htail]
  · have hpair : groupWords .le [0xAA] ++ groupWords .le [0xBB] = [0x000000AA, 0x000000BB] := by decide
    have hjoin : groupWords .le ([0xAA] ++ [0xBB]) = [0x0000BBAA] := by decide
    rw [hx, hy, ho, hpair, hjoin]
    exact ⟨rfl, rfl⟩

end Sys2Proof.Machine
end

section
/-! PROOF. The transfer steps of the reads (R67, R71), whole reads (R68, R72), and that `FRD` and `FRDW` agree on the bus
(R73). -/

namespace Sys2Proof.Machine

/-! ## The transfer steps (R67, R71) -/

/-- What the transfer step of an `FRD` changes. -/
theorem afterFrd_eq (s : State) : afterFrd s =
    (let r := deviceRead s.cfg s.device s.draws s.areg
     { s with
       wreg := r.word, idx := s.idx + 1, device := r.dev, draws := r.draws
       trace := s.trace ++ [.busRead s.areg r.word,
         .dstBytes (leadingBytes s.cfg.byteOrder (gsize s.lenreg.toNat s.idx.toNat) r.word)] }) := by
  simp [afterFrd, advance, emit, portRead, portReadWord]

/-- What the transfer step of an `FRDW` changes. -/
theorem afterFrdw_eq (s : State) : afterFrdw s =
    (let r := deviceRead s.cfg s.device s.draws s.areg
     { s with
       wreg := r.word, idx := s.idx + 1, device := r.dev, draws := r.draws
       trace := s.trace ++ [.busRead s.areg r.word, .dstWord r.word] }) := by
  simp [afterFrdw, advance, emit, portRead, portReadWord]

theorem isWindowBase_of_readChannel {cfg : Config} {a : Addr} (h : a.toNat = windowBase cfg 0) :
    isWindowBase cfg a = true :=
  (isWindowBase_iff cfg a).mpr ⟨0, Nat.zero_le 15, h⟩

/-- Settles O14: the transfer step of a served `FRD` with a group left, which has at least one byte. -/
theorem frdTransferStep : Obligations.FrdTransferStep := by
  unfold Obligations.FrdTransferStep
  intro s len hlen hc hs hop hlenreg hareg hnreg hidx hbus hsink k r
  have hl : latched s = some (.frd len) := latched_eq_frd.mpr ⟨hop, hlenreg⟩
  have hk : gsize s.lenreg.toNat s.idx.toNat = k := by rw [hlenreg, gsize]
  have hstep : exec (.frd len) s = .next (afterFrd s) :=
    exec_busy_transfer (latched_wellFormed hl) hs hl (by rwa [hnreg]) (isWindowBase_of_readChannel hareg)
      (by simp only [servedOf, hbus, hsink, Bool.true_and])
  refine ⟨one_le_gsize hidx, ?_⟩
  rw [hstep, afterFrd_eq, hk]
  rfl

/-- Settles O15: the transfer step of a served `FRDW` with a word left. -/
theorem frdwTransferStep : Obligations.FrdwTransferStep := by
  unfold Obligations.FrdwTransferStep
  intro s len hlen hc hs hop hlenreg hareg hidx hbus hsink r
  have hl : latched s = some (.frdw len) := latched_eq_frdw.mpr ⟨hop, hlenreg⟩
  have hstep : exec (.frdw len) s = .next (afterFrdw s) :=
    exec_busy_transfer (latched_wellFormed hl) hs hl hidx (isWindowBase_of_readChannel hareg)
      (by simp only [servedOf, hbus, hsink, Bool.true_and])
  rw [hstep, afterFrdw_eq]

/-! ## The accesses of a read's events (R31) -/

theorem map_getD_range {α : Type} (d : α) {xs : List α} {n : Nat} (h : xs.length = n) :
    (List.range n).map (fun k => xs.getD k d) = xs := by
  apply List.ext_getElem <;> simp +contextual [h]

/-- An `FRD` makes one read for each word it is answered, whatever part of the word it delivers (R67). -/
theorem busAccesses_frdEvents (o : ByteOrder) (a : Addr) {len : Nat} {ws : List Word} (h : ws.length = ngroups len) :
    busAccesses (frdEvents o a len ws) = ws.map (.read a) := by
  conv_rhs => rw [← map_getD_range 0 h]
  simp [busAccesses, frdEvents, List.flatMap_assoc, List.map_eq_flatMap]

@[simp] theorem busAccesses_frdwEvents (a : Addr) (ws : List Word) : busAccesses (frdwEvents a ws) = ws.map (.read a) := by
  simp [busAccesses, frdwEvents, List.flatMap_assoc, List.map_eq_flatMap]

/-! ## A whole read (R68, R72) -/

theorem isRead_frd (len : Nat) : IsRead (.frd len) := trivial

theorem isRead_frdw (n : Nat) : IsRead (.frdw n) := trivial

/-- A read command first in the port of the idle block, with no other agent to move. -/
theorem presented_of_read {i : Instr} {s : State} {rest : List Descriptor} (hi : IsRead i) (hw : i.wellFormed = true)
    (hc : configOk s.cfg = true) (ht : s.turns = []) (hs : s.state = .idle) (hcmd : s.cmd = encode i :: rest) :
    Presented i s where
  config := hc
  alone := ht
  idle := hs
  port := by rw [hcmd, List.head?_cons]
  fits := hw
  channel := (channelOf_of_read hi).trans_le (Nat.zero_le 15)

theorem afterOf_src_of_read {i : Instr} (hi : IsRead i) (s : State) : (afterOf i s).src = s.src := by
  cases i with
  | fwr => exact hi.elim
  | frd | frdw => rfl

/-- A read takes nothing from the source stream (R68). -/
theorem completed_src_of_read {i : Instr} (hi : IsRead i) (s : State) : (completed i s).src = s.src :=
  atAccess_keeps State.src (afterOf_src_of_read hi) s _

/-- When a command has ended, the port holds what stood behind it. -/
theorem completed_cmd_of_cons {i : Instr} {s : State} {d : Descriptor} {rest : List Descriptor} (h : s.cmd = d :: rest) :
    (completed i s).cmd = rest := by
  rw [completed_cmd, h, List.drop_one, List.tail_cons]

/-- Settles O42: the run of an `FRD` alone and its events; the bytes and the number of reads follow from there being
`ngroups(L)` answers. -/
theorem frdDeliversTheLeadingBytes : Obligations.FrdDeliversTheLeadingBytes := by
  unfold Obligations.FrdDeliversTheLeadingBytes
  intro s len ws rest hc ht hs hcause hbus hsink hlen hcmd hws
  subst hws
  have h : Presented (.frd len) s := presented_of_read (isRead_frd _) (decide_eq_true hlen) hc ht hs hcmd
  have hcount : (answersFrom s (ngroups len)).length = ngroups len := answersOf_length ..
  refine ⟨completed (.frd len) s, run_frd h hbus hsink, completed_frd_trace h.fits s,
    deliveredBytes_frdEvents _ _ hcount, ?_, completed_state _ _, (completed_cause _ _).trans hcause,
    completed_src_of_read (isRead_frd len) s, completed_cmd_of_cons hcmd, completed_cfg _ _⟩
  rw [busAccesses_frdEvents _ _ hcount, List.length_map, hcount]

/-- Settles O43: the run of an `FRDW` alone and its events; with a nonzero `CH` the descriptor is illegal, so that R44's halt
applies. -/
theorem frdwDeliversTheWords : Obligations.FrdwDeliversTheWords := by
  unfold Obligations.FrdwDeliversTheWords
  refine ⟨fun s n ws rest hc ht hs hcause hbus hsink hn hcmd hws => ?_, fun s d rest hc ht hs hcmd hop hch => ?_⟩
  · subst hws
    have h : Presented (.frdw n) s := presented_of_read (isRead_frdw _) (decide_eq_true hn) hc ht hs hcmd
    exact ⟨completed (.frdw n) s, run_frdw h hbus hsink, completed_frdw_trace n s, answersOf_length ..,
      deliveredWords_frdwEvents _ _, completed_state _ _, (completed_cause _ _).trans hcause,
      completed_src_of_read (isRead_frdw n) s, completed_cmd_of_cons hcmd, completed_cfg _ _⟩
  · obtain ⟨-, hhalt, -⟩ := illegalDescriptorHaltsBeforeAnyEffect
    obtain ⟨why, hd⟩ : ∃ why, decode d = .illegal why :=
      (exists_decode_eq_illegal_iff d).mpr (.inr (.inr ⟨hch, .inr hop⟩))
    exact ⟨_, hhalt s d rest why hc (.inl ht) hs hcmd hd, rfl, rfl, rfl⟩

/-! ## `FRD` against `FRDW` (R73) -/

/-- All read commands drive the device alike: from the same device it stands at the same place before access number `n`. -/
theorem atAccess_device_draws_of_reads {i j : Instr} (hi : IsRead i) (hj : IsRead j) {s t : State} (hcfg : s.cfg = t.cfg)
    (hdev : s.device = t.device) (hdraws : s.draws = t.draws) (n : Nat) :
    (atAccess i s n).device = (atAccess j t n).device ∧ (atAccess i s n).draws = (atAccess j t n).draws := by
  induction n with
  | zero => exact ⟨hdev, hdraws⟩
  | succ n ih =>
    obtain ⟨hdev, hdraws⟩ := ih
    simp only [atAccess, afterOf_device_of_read hi, afterOf_device_of_read hj, afterOf_draws_of_read hi,
      afterOf_draws_of_read hj, atAccess_cfg, atAccess_areg, channelOf_of_read hi, channelOf_of_read hj, hcfg, hdev, hdraws,
      and_self]

/-- Read commands that make as many accesses leave the same device. -/
theorem completed_device_draws_of_reads {i j : Instr} (hi : IsRead i) (hj : IsRead j) {s t : State}
    (hn : accessesOf i = accessesOf j) (hcfg : s.cfg = t.cfg) (hdev : s.device = t.device) (hdraws : s.draws = t.draws) :
    (completed i s).device = (completed j t).device ∧ (completed i s).draws = (completed j t).draws := by
  rw [completed, completed, hn]
  exact atAccess_device_draws_of_reads hi hj hcfg hdev hdraws _

/-- Settles O44: the answers are the same for both commands, so their accesses and the device are, and `FRD` delivers the
leading bytes of the words that `FRDW` delivers whole. -/
theorem frdAndFrdwAgreeOnTheBus : Obligations.FrdAndFrdwAgreeOnTheBus := by
  unfold Obligations.FrdAndFrdwAgreeOnTheBus
  intro s len rest hc ht hs hbus hbytes hwords hlen
  have hfrd : Presented (.frd len) { s with cmd := encode (.frd len) :: rest } :=
    presented_of_read (isRead_frd _) (decide_eq_true hlen) hc ht hs rfl
  have hfrdw : Presented (.frdw (ngroups len)) { s with cmd := encode (.frdw (ngroups len)) :: rest } :=
    presented_of_read (isRead_frdw _) (decide_eq_true (accessesOf_lt hfrd.fits)) hc ht hs rfl
  have hcount : (answersFrom s (ngroups len)).length = ngroups len := answersOf_length ..
  refine ⟨_, _, _, _, run_frd hfrd hbus hbytes, run_frdw hfrdw hbus hwords, completed_frd_trace hfrd.fits _,
    completed_frdw_trace _ _, ?_, ?_, ?_, ?_, ?_⟩
  · rw [← List.cons_append, List.getLast?_concat]
  · rw [← List.cons_append, List.getLast?_concat]
  · simp [busAccesses_frdEvents _ _ hcount]
  · simp [deliveredBytes_frdEvents _ _ hcount]
  · exact completed_device_draws_of_reads (isRead_frd _) (isRead_frdw _) rfl rfl rfl rfl

end Sys2Proof.Machine
end

section
/-! PROOF. The halt (60_exceptions.md): which acceptance raises it and with what cause (R74, R75, R81), that it is precise
(R77, R78), and that only reset leaves it (R79). -/

namespace Sys2Proof.Machine

/-! ## What accepting a command or a descriptor raises (R74, R75) -/

/-- Only an `FWR` names a channel of its own, so only an `FWR` can name one out of range. -/
theorem channelOf_gt_iff (i : Instr) : 15 < channelOf i ↔ ∃ ch len, i = .fwr ch len ∧ 15 < ch := by
  cases i <;> simp

theorem acceptOf_state_of_channel_le {i : Instr} (h : channelOf i ≤ 15) (s : State) : (acceptOf i s).state = .busy := by
  cases i <;> exact congrArg State.state (acceptCommand_of_le h)

theorem acceptOf_of_channel_gt {i : Instr} (h : 15 < channelOf i) (s : State) :
    acceptOf i s = raiseHalt .channelRange (encode i) (emit [.accept (encode i)] s) := by
  cases i <;> exact acceptCommand_of_gt h

theorem acceptOf_halted_iff (i : Instr) (s : State) : (acceptOf i s).state = .halted ↔ 15 < channelOf i := by
  rcases Nat.lt_or_ge 15 (channelOf i) with h | h
  · exact iff_of_true (by rw [acceptOf_of_channel_gt h, raiseHalt_state]) h
  · exact iff_of_false (by simp [acceptOf_state_of_channel_le h]) (Nat.not_lt.mpr h)

theorem acceptCause_of_illegal {d : Descriptor} {why : Illegal} (hd : decode d = .illegal why) :
    acceptCause d = .illegalCmd := by
  simp [acceptCause, hd]

theorem acceptCause_of_channel_gt {d : Descriptor} {i : Instr} (hd : decode d = .cmd i) (h : 15 < channelOf i) :
    acceptCause d = .channelRange := by
  obtain ⟨ch, len, rfl, hch⟩ := (channelOf_gt_iff i).mp h
  simp [acceptCause, hd, hch]

/-- Settles O20: the accept step halts on the channel of the command, and only an `FWR`'s can be above 15. -/
theorem onlyABadChannelHaltsACommand : Obligations.OnlyABadChannelHaltsACommand := by
  unfold Obligations.OnlyABadChannelHaltsACommand
  intro i s hw hs
  refine ⟨_, exec_idle hw hs, (acceptOf_halted_iff i s).trans (channelOf_gt_iff i), fun hhalt => ?_⟩
  rw [acceptOf_of_channel_gt ((acceptOf_halted_iff i s).mp hhalt)]
  exact ⟨rfl, rfl⟩

/-! ## The halt is precise and early (R77, R78) -/

/-- The block enters `HALTED` by one move alone: it takes the oldest descriptor, and accepting that raises its cause. -/
theorem BlockMove.halts {b t : State} (h : BlockMove b t) (hb : b.state ≠ .halted) (ht : t.state = .halted) :
    ∃ d ds, b.state = .idle ∧ b.cmd = d :: ds ∧ acceptCause d ≠ .none ∧
      t = raiseHalt (acceptCause d) d (emit [.accept d] (takeDescriptor b)) := by
  cases h with
  | wait => exact absurd ht hb
  | accept d ds i hs hm hd =>
    have hch : 15 < channelOf i := (acceptOf_halted_iff i _).mp ht
    have hcause := acceptCause_of_channel_gt hd hch
    exact ⟨d, ds, hs, hm, by simp [hcause], by rw [acceptOf_of_channel_gt hch, encode_of_decode hd, hcause]⟩
  | illegal d ds why hs hm hd =>
    have hcause := acceptCause_of_illegal hd
    exact ⟨d, ds, hs, hm, by simp [hcause], by rw [hcause, acceptIllegal]⟩
  | transfer i => exact absurd ((afterOf_state i b).symm.trans ht) hb
  | done => cases ht

/-- No other agent enters `HALTED`: reset leaves the block idle, and the rest leave `STATE` alone. -/
theorem takeTurn_not_halted (u : Turn) {s : State} (hs : s.state ≠ .halted) : (takeTurn u s).state ≠ .halted := by
  by_cases hu : u = .reset
  · subst hu
    exact fun h => nomatch h
  · obtain ⟨hstate, -⟩ := takeTurn_frame hu s
    rwa [hstate]

/-- Settles O21: only the block can enter `HALTED`, by the accept step that raises the cause. -/
theorem haltIsPreciseAndEarly : Obligations.HaltIsPreciseAndEarly := by
  unfold Obligations.HaltIsPreciseAndEarly
  intro s t h hs ht
  obtain ⟨-, ⟨u, ts, -, -, rfl⟩ | ⟨-, hmove⟩⟩ := step_next h
  · exact absurd ht (takeTurn_not_halted u (s := dropTurn s) hs)
  · obtain ⟨d, ds, hidle, hm, hcause, rfl⟩ := hmove.halts hs ht
    have hcmd : s.cmd = d :: ds := hm
    refine ⟨d, ds, _, hidle, hcmd, rfl, hcause, ?_⟩
    simp [raiseHalt, emit, takeDescriptor, dropTurn, hcmd]

/-! ## Only reset leaves a halt, and what wins over it (R79, R81) -/

theorem step_reset {s : State} {ts : List Turn} (hc : configOk s.cfg = true) (ht : s.turns = .reset :: ts) :
    step s = .next (resetBlock (dropTurn s)) :=
  step_turn hc ht (fun h => nomatch h)

/-- Settles O22: the block's fault, the frame of another agent's move, and reset. -/
theorem haltedUntilReset : Obligations.HaltedUntilReset := by
  unfold Obligations.HaltedUntilReset
  intro s hc hs
  refine ⟨fun ht => step_halted hc ht hs, fun u ts ht hblock hreset => ?_,
    fun ts ht => ⟨_, step_reset hc ht, resetBlock_state _⟩⟩
  obtain ⟨hstate, hcause, hinfo, hop, hch, hlen, ha, hn, hidx, hw, htrace, -, hcmd, hsrc⟩ :=
    takeTurn_frame hreset (dropTurn s)
  exact ⟨_, step_turn hc ht hblock, hstate.trans hs, hcause, hinfo, htrace, hop, hch, hlen, ha, hn, hidx, hw, hcmd, hsrc⟩

/-- Settles O23: a nonzero `RSV` makes the descriptor illegal whatever its `CH`, and reset's turn is not the block's. -/
theorem illegalCommandBeatsChannelRange : Obligations.IllegalCommandBeatsChannelRange := by
  unfold Obligations.IllegalCommandBeatsChannelRange
  refine ⟨fun s d ds hc ht hs hm _ hrsv _ => ?_, fun s ts hc ht => ⟨_, step_reset hc ht, rfl, rfl, rfl⟩⟩
  obtain ⟨why, hd⟩ := (exists_decode_eq_illegal_iff d).mpr (.inl hrsv)
  exact ⟨_, step_idle_illegal hc ht hs hm hd, rfl, rfl, rfl, acceptIllegal_trace d _⟩

end Sys2Proof.Machine
end

section
/-! PROOF. Reset (70_reset_and_hazards.md): what it leaves and that nothing else leaves `HALTED` or emits `Reset` (R87), that the
command it abandons never resumes (R88), and that the next descriptor presented is accepted at once (R89). -/

namespace Sys2Proof.Machine

/-! ## Only reset leaves a halt or emits `Reset` (R87) -/

/-- In `HALTED` no move of the block changes `STATE` (R79). -/
theorem BlockMove.stays_halted {b t : State} (h : BlockMove b t) (hb : b.state = .halted) : t.state = .halted := by
  by_contra ht
  rcases h.state_change (fun heq => ht (heq.symm.trans hb)) with ⟨hs, -⟩ | ⟨hs, -⟩ | ⟨hs, -⟩ <;>
    exact nomatch hs.symm.trans hb

theorem reset_notMem_transferEvents (i : Instr) (s : State) : .reset ∉ transferEvents i s := by
  cases i <;> simp [transferEvents]

/-- The block never resets itself: no move of it emits `Reset` (R87). -/
theorem BlockMove.no_reset {b t : State} (h : BlockMove b t) : ∃ es, t.trace = b.trace ++ es ∧ .reset ∉ es := by
  cases h with
  | wait => exact ⟨[], by simp⟩
  | accept d ds i =>
    rcases acceptOf_state_trace i (takeDescriptor b) with ⟨-, htr⟩ | ⟨-, htr⟩ <;> exact ⟨_, htr, by simp⟩
  | illegal d ds why => exact ⟨_, acceptIllegal_trace d _, by simp⟩
  | transfer i => exact ⟨_, afterOf_trace i b, reset_notMem_transferEvents i b⟩
  | done => exact ⟨[.done], rfl, by simp⟩

/-- Off reset's turn a step neither leaves `HALTED` nor emits `Reset` (R87). -/
theorem step_without_reset {s t : State} (h : step s = .next t) (hr : s.turns.head? ≠ some .reset) :
    (s.state = .halted → t.state = .halted) ∧ ∃ es, t.trace = s.trace ++ es ∧ .reset ∉ es := by
  obtain ⟨-, ⟨u, ts, hts, -, rfl⟩ | ⟨-, hmove⟩⟩ := step_next h
  · have hu : u ≠ .reset := by simpa [hts] using hr
    obtain ⟨hstate, -, -, -, -, -, -, -, -, -, htrace, -⟩ := takeTurn_frame hu (dropTurn s)
    exact ⟨hstate.trans, [], by simp [htrace]⟩
  · exact ⟨hmove.stays_halted, hmove.no_reset⟩

/-- Settles O24: what reset leaves, and that a step off its turn neither leaves `HALTED` nor emits `Reset`. -/
theorem resetLeavesTheBlockIdle : Obligations.ResetLeavesTheBlockIdle := by
  unfold Obligations.ResetLeavesTheBlockIdle
  refine ⟨fun s ts hc ht => ?_, fun s t h hs hne => ?_, fun s t es h htr hes => ?_⟩
  · exact ⟨_, step_reset hc ht, rfl, rfl, rfl, rfl, rfl, rfl, by simp [ht]⟩
  · by_contra hr
    exact hne ((step_without_reset h hr).1 hs)
  · by_contra hr
    obtain ⟨-, es', htr', hes'⟩ := step_without_reset h hr
    exact hes' (List.append_cancel_left (htr.symm.trans htr') ▸ hes)

/-! ## The abandoned command (R88) -/

theorem run_of_step_self {s : State} (h : step s = .next s) (n : Nat) : run n s = .next s := by
  induction n with
  | zero => rfl
  | succ n ih => exact (run_succ_of_run ih).trans h

/-- An idle block with nothing at its port and no other agent to move does nothing, however long it runs (R58). -/
theorem run_idle_empty {s : State} (hc : configOk s.cfg = true) (ht : s.turns = []) (hs : s.state = .idle)
    (hm : s.cmd = []) (n : Nat) : run n s = .next s :=
  run_of_step_self (by rw [step_idle_empty hc (.inl ht) hs hm, dropTurn_of_nil ht]) n

/-- Settles O25: reset empties the port and leaves the block idle, where nothing more happens. -/
theorem abandonedCommandNeverResumes : Obligations.AbandonedCommandNeverResumes := by
  unfold Obligations.AbandonedCommandNeverResumes
  intro s n hc ht
  have hreset : run 1 s = .next (resetBlock (dropTurn s)) := (run_one s).trans (step_reset hc ht)
  have hidle : run n (resetBlock (dropTurn s)) = .next (resetBlock (dropTurn s)) :=
    run_idle_empty (s := resetBlock (dropTurn s)) hc (by simp [ht]) rfl rfl n
  refine ⟨resetBlock (dropTurn s), ?_, rfl, rfl, rfl, rfl⟩
  rw [Nat.add_comm, run_add_of_run hreset, hidle]

/-! ## The first descriptor after reset (R89) -/

theorem acceptCause_of_channel_le {d : Descriptor} {i : Instr} (hd : decode d = .cmd i) (h : channelOf i ≤ 15) :
    acceptCause d = .none := by
  cases i with
  | fwr ch len => simpa [acceptCause, hd] using h
  | frd len => simp [acceptCause, hd]
  | frdw len => simp [acceptCause, hd]

/-- The accept step of the idle block, legal descriptor or not: it latches the command with nothing else emitted, or halts
with the cause the acceptance raises (R55, R74). -/
theorem step_accepts {s : State} {d : Descriptor} {ds : List Descriptor} (hc : configOk s.cfg = true) (ht : BlocksTurn s)
    (hs : s.state = .idle) (hm : s.cmd = d :: ds) :
    ∃ t, step s = .next t ∧
      ((acceptCause d = .none ∧ t.state = .busy ∧ t.cause = s.cause ∧ t.trace = s.trace ++ [.accept d]) ∨
       (acceptCause d ≠ .none ∧ t.state = .halted ∧ t.cause = acceptCause d ∧
         t.trace = s.trace ++ [.accept d, .halt (acceptCause d)])) := by
  cases hd : decode d with
  | illegal why =>
    rw [acceptCause_of_illegal hd]
    exact ⟨_, step_idle_illegal hc ht hs hm hd, .inr ⟨by simp, rfl, rfl, acceptIllegal_trace d _⟩⟩
  | cmd i =>
    have hstep : step s = .next (acceptOf i (takeDescriptor (dropTurn s))) := by
      rw [step_idle_cmd hc ht hs hm hd, exec_idle (s := takeDescriptor (dropTurn s)) (decode_wellFormed hd) hs]
    refine ⟨_, hstep, ?_⟩
    rcases Nat.lt_or_ge 15 (channelOf i) with h | h
    · rw [acceptCause_of_channel_gt hd h, acceptOf_of_channel_gt h, encode_of_decode hd]
      exact .inr ⟨by simp, rfl, rfl, by simp⟩
    · rw [acceptCause_of_channel_le hd h, acceptOf_eq_accepted h]
      exact .inl ⟨rfl, rfl, rfl, by simp [accepted, encode_of_decode hd]⟩

/-- Settles O26: reset leaves the block idle with an empty port, so the descriptor presented is the one accepted. -/
theorem firstDescriptorAfterResetIsAccepted : Obligations.FirstDescriptorAfterResetIsAccepted := by
  unfold Obligations.FirstDescriptorAfterResetIsAccepted
  intro s d hc hturns
  have hreset : run 1 s = .next (resetBlock (dropTurn s)) := (run_one s).trans (step_reset hc hturns)
  have hpresent : run 2 s = .next (takeTurn (.present d) (dropTurn (resetBlock (dropTurn s)))) :=
    (run_succ_of_run hreset).trans (step_turn (ts := []) hc (by simp [hturns]) (by simp))
  obtain ⟨t, hstep, haccept⟩ := step_accepts (s := takeTurn (.present d) (dropTurn (resetBlock (dropTurn s))))
    (d := d) (ds := []) hc (.inl (by simp [takeTurn, hturns])) rfl rfl
  refine ⟨t, (run_succ_of_run hpresent).trans hstep, ?_⟩
  rcases haccept with ⟨hnone, hstate, hcause, htrace⟩ | ⟨hsome, hstate, hcause, htrace⟩
  · exact ⟨hcause.trans hnone.symm, fun _ => ⟨hstate, by simp [htrace, takeTurn]⟩, fun h => absurd hnone h⟩
  · exact ⟨hcause, fun h => absurd h hsome, fun _ => ⟨hstate, by simp [htrace, takeTurn]⟩⟩

end Sys2Proof.Machine
end

section
/-! PROOF. The invariant of the machine: reset meets it and every step keeps it (R7, R12, R15, R55), what the status port shows
in its states (R15), that no step is refused from them (R79, U5), and that no run changes the configuration (R22). -/

namespace Sys2Proof.Machine

/-! ## What reset and the other agents' moves keep -/

theorem inv_resetWith {cfg : Config} (hc : configOk cfg = true) : Inv (State.resetWith cfg) := by
  refine ⟨hc, ?_, fun _ => rfl, ?_, ?_⟩ <;> simp [State.resetWith]

/-- Reset makes the invariant hold again, whatever held before but the configuration. -/
theorem inv_resetBlock {s : State} (hc : configOk s.cfg = true) : Inv (resetBlock s) := inv_resetWith hc

/-- A move of another agent keeps the invariant, since none but reset touches what it speaks of. -/
theorem inv_takeTurn (u : Turn) {s : State} (h : Inv s) : Inv (takeTurn u s) := by
  by_cases hu : u = .reset
  · subst hu
    exact inv_resetBlock h.1
  · obtain ⟨hstate, hcause, hinfo, hop, hch, hlen, ha, hn, hidx, -⟩ := takeTurn_frame hu s
    simpa only [Inv, LatchOk, takeTurn_cfg, hstate, hcause, hinfo, hop, hch, hlen, ha, hn, hidx] using h

/-! ## What the block's moves keep -/

@[simp] theorem afterOf_cause (i : Instr) (s : State) : (afterOf i s).cause = s.cause := by cases i <;> rfl
@[simp] theorem afterOf_info (i : Instr) (s : State) : (afterOf i s).info = s.info := by cases i <;> rfl
@[simp] theorem afterOf_opreg (i : Instr) (s : State) : (afterOf i s).opreg = s.opreg := by cases i <;> rfl

@[simp] theorem accepted_state (i : Instr) (s : State) : (accepted i s).state = .busy := rfl

/-- While an access is left, moving `IDX` on does not wrap it. -/
theorem idx_succ_toNat {s : State} (h : s.idx.toNat < s.nreg.toNat) : (s.idx + 1).toNat = s.idx.toNat + 1 := by
  have hone : (1 : BitVec 32).toNat = 1 := rfl
  have hlt := s.nreg.isLt
  rw [BitVec.toNat_add, hone]
  omega

/-- An accept step with a channel in range latches the command as R12 and R55 say. -/
theorem latchOk_accepted {i : Instr} {s : State} (hc : configOk s.cfg = true) (hw : i.wellFormed = true)
    (hch : channelOf i ≤ 15) : LatchOk (accepted i s) := by
  have hchreg : (accepted i s).chreg.toNat = channelOf i := by
    simpa [accepted] using channelOf_lt hw
  have hlen : (accepted i s).lenreg.toNat = lengthOf i := atAccess_lenreg_toNat hw s 0
  have hn : (accepted i s).nreg.toNat = accessesOf i := atAccess_nreg_toNat hw s 0
  refine ⟨hchreg.trans_le hch, ?_, ?_, ?_, Nat.zero_le _⟩
  · cases i with
    | fwr ch len => exact .inl rfl
    | frd len => exact .inr ⟨.inl rfl, rfl⟩
    | frdw n => exact .inr ⟨.inr rfl, rfl⟩
  · rw [hchreg]
    exact windowAddr_toNat hc hch
  · rw [hn, hlen]
    cases i <;> rfl

/-- A transfer step keeps the latch: it moves `IDX` on by one while an access is left (R56). -/
theorem latchOk_afterOf {i : Instr} {s : State} (h : LatchOk s) (hi : s.idx.toNat < s.nreg.toNat) :
    LatchOk (afterOf i s) := by
  obtain ⟨hch, hop, ha, hn, -⟩ := h
  simp only [LatchOk, afterOf_cfg, afterOf_chreg, afterOf_opreg, afterOf_areg, afterOf_nreg, afterOf_lenreg, afterOf_idx,
    idx_succ_toNat hi]
  exact ⟨hch, hop, ha, hn, hi⟩

/-- A halt that tells its descriptor's cause meets the invariant. -/
theorem inv_raiseHalt {c : Cause} {d : Descriptor} {s : State} (hc : configOk s.cfg = true) (hd : acceptCause d = c)
    (hne : c ≠ .none) : Inv (raiseHalt c d s) :=
  ⟨hc, iff_of_true hne rfl, fun h => absurd h hne, fun _ => hd.symm, fun h => nomatch h⟩

/-- Outside `HALTED` the invariant says that nothing is recorded, and that a command in progress is latched. -/
theorem inv_of_not_halted {s : State} (hc : configOk s.cfg = true) (hs : s.state ≠ .halted) (hcause : s.cause = .none)
    (hinfo : s.info = 0) (hlatch : s.state = .busy → LatchOk s) : Inv s :=
  ⟨hc, iff_of_false (fun h => h hcause) hs, fun _ => hinfo, fun h => absurd h hs, hlatch⟩

theorem Inv.cause_info {s : State} (h : Inv s) (hs : s.state ≠ .halted) : s.cause = .none ∧ s.info = 0 := by
  obtain ⟨-, hhalt, hinfo, -⟩ := h
  have hcause : s.cause = .none := by
    by_contra hne
    exact hs (hhalt.mp hne)
  exact ⟨hcause, hinfo hcause⟩

/-- Every move of the block keeps the invariant: an accept step latches or halts, a transfer step moves `IDX` on, and the done
step leaves nothing latched. -/
theorem BlockMove.inv {b t : State} (h : BlockMove b t) (hb : Inv b) : Inv t := by
  have hc := hb.1
  cases h with
  | wait => exact hb
  | accept d ds i hs hm hd =>
    rcases Nat.lt_or_ge 15 (channelOf i) with hch | hch
    · rw [acceptOf_of_channel_gt hch, encode_of_decode hd]
      exact inv_raiseHalt hc (acceptCause_of_channel_gt hd hch) (by simp)
    · obtain ⟨hcause, hinfo⟩ := hb.cause_info (by simp [hs])
      rw [acceptOf_eq_accepted hch]
      exact inv_of_not_halted hc (by simp) hcause hinfo fun _ => latchOk_accepted hc (decode_wellFormed hd) hch
  | illegal d ds why hs hm hd => exact inv_raiseHalt hc (acceptCause_of_illegal hd) (by simp)
  | transfer i hs hl hi =>
    obtain ⟨hcause, hinfo⟩ := hb.cause_info (by simp [hs])
    obtain ⟨-, -, -, -, hlatch⟩ := hb
    exact inv_of_not_halted (by simpa using hc) (by simp [hs]) (by simpa using hcause) (by simpa using hinfo)
      fun _ => latchOk_afterOf (hlatch hs) hi
  | done hs =>
    obtain ⟨hcause, hinfo⟩ := hb.cause_info (by simp [hs])
    exact inv_of_not_halted hc (by simp) hcause hinfo fun h => nomatch h

/-- Settles O31: another agent touches nothing of the invariant but by reset, and each move of the block keeps it. -/
theorem everyStepKeepsTheInvariant : Obligations.EveryStepKeepsTheInvariant := by
  unfold Obligations.EveryStepKeepsTheInvariant
  intro s t hs h
  obtain ⟨-, ⟨u, ts, -, -, rfl⟩ | ⟨-, hmove⟩⟩ := step_next h
  · exact inv_takeTurn u (s := dropTurn s) hs
  · exact hmove.inv hs

/-- Settles O30: right after reset nothing is recorded and nothing is latched, and `CFG_T` is well formed. -/
theorem resetMeetsTheInvariant : Obligations.ResetMeetsTheInvariant := by
  unfold Obligations.ResetMeetsTheInvariant
  exact ⟨fun cfg hc => ⟨inv_resetWith hc, rfl, rfl, rfl⟩, inv_resetWith (by decide)⟩

/-! ## The status port (R15) -/

theorem stateCode_injective : Function.Injective stateCode := by
  intro p q h
  cases p <;> cases q <;> simp_all [stateCode]

theorem causeCode_injective : Function.Injective causeCode := by
  intro p q h
  cases p <;> cases q <;> simp_all [causeCode]

/-- Settles O33: the codes are injective, so that they tell what the invariant says of `STATE` and `CAUSE`. -/
theorem statusPortTellsTheHalt : Obligations.StatusPortTellsTheHalt := by
  unfold Obligations.StatusPortTellsTheHalt
  intro s
  have hstate (p : Phase) : (statusPort s).stateBits = stateCode p ↔ s.state = p := stateCode_injective.eq_iff
  have hcause (c : Cause) : (statusPort s).causeBits = causeCode c ↔ s.cause = c := causeCode_injective.eq_iff
  refine ⟨hstate .idle, hstate .busy, hstate .halted, hcause .none, hcause .channelRange, hcause .illegalCmd, rfl, ?_⟩
  rintro ⟨-, hhalt, hinfo, -⟩
  exact ⟨(not_congr (hcause .none)).trans (hhalt.trans (hstate .halted).symm), fun h => hinfo ((hcause .none).mp h)⟩

/-! ## No refusal (R79, U5) -/

theorem LatchOk.isWindowBase {s : State} (h : LatchOk s) : isWindowBase s.cfg s.areg = true := by
  obtain ⟨hch, -, ha, -⟩ := h
  exact (isWindowBase_iff _ _).mpr ⟨_, hch, ha⟩

theorem LatchOk.exists_latched {s : State} (h : LatchOk s) : ∃ i, latched s = some i := by
  obtain ⟨-, hop | ⟨hop | hop, -⟩, -⟩ := h
  · exact ⟨_, latched_eq_fwr.mpr ⟨hop, rfl, rfl⟩⟩
  · exact ⟨_, latched_eq_frd.mpr ⟨hop, rfl⟩⟩
  · exact ⟨_, latched_eq_frdw.mpr ⟨hop, rfl⟩⟩

/-- A transfer step at a window base is made or waits. -/
theorem transferOf_of_window {i : Instr} {s : State} (hwin : isWindowBase s.cfg s.areg = true) :
    transferOf i s = .next (if servedOf i s then afterOf i s else s) := by
  rw [transferOf_eq, transferWhen, if_pos hwin]
  split <;> rfl

/-- A busy block whose command is latched as R12 says always makes its step. -/
theorem exec_of_latchOk {i : Instr} {s : State} (hs : s.state = .busy) (h : LatchOk s) (hl : latched s = some i) :
    ∃ t, exec i s = .next t := by
  rw [exec_eq, commandStep_busy (latched_wellFormed hl) hs hl]
  have hwin := LatchOk.isWindowBase h
  obtain ⟨-, -, -, -, hle⟩ := h
  rcases hle.lt_or_eq with hi | hi
  · rw [busyStep_transfer hi, transferOf_of_window hwin]
    exact ⟨_, rfl⟩
  · exact ⟨_, busyStep_done (BitVec.eq_of_toNat_eq hi)⟩

/-- From an invariant state a step answers a next state, unless the block is given a turn in `HALTED`. -/
theorem exists_step_of_inv {s : State} (h : Inv s) (hn : ¬(BlocksTurn s ∧ s.state = .halted)) : ∃ t, step s = .next t := by
  obtain ⟨hc, -, -, -, hlatch⟩ := h
  by_cases hb : BlocksTurn s
  · cases hs : s.state with
    | halted => exact absurd ⟨hb, hs⟩ hn
    | idle =>
      cases hm : s.cmd with
      | nil => exact ⟨_, step_idle_empty hc hb hs hm⟩
      | cons d ds =>
        obtain ⟨t, ht, -⟩ := step_accepts hc hb hs hm
        exact ⟨t, ht⟩
    | busy =>
      obtain ⟨i, hl⟩ := LatchOk.exists_latched (hlatch hs)
      rw [step_busy hc hb hs hl]
      exact exec_of_latchOk (s := dropTurn s) hs (hlatch hs) hl
  · cases ht : s.turns with
    | nil => exact absurd (.inl ht) hb
    | cons u ts => exact ⟨_, step_turn hc ht fun hu => hb (.inr (by simp [ht, hu]))⟩

/-- Settles O32: off the block's turn in `HALTED` there is a next state, and on it the step is the fault. -/
theorem invariantStatesAreNeverRefused : Obligations.InvariantStatesAreNeverRefused := by
  unfold Obligations.InvariantStatesAreNeverRefused
  intro s h
  by_cases hn : BlocksTurn s ∧ s.state = .halted
  · have hfault := step_halted h.1 hn.1 hn.2
    exact ⟨fun r => by simp [hfault], iff_of_true ⟨_, hfault⟩ hn⟩
  · obtain ⟨t, ht⟩ := exists_step_of_inv h hn
    exact ⟨fun r => by simp [ht], iff_of_false (by simp [ht]) hn⟩

/-! ## The configuration (R10, R22) -/

/-- With a channel in range accepting a command latches its parts (R55). -/
theorem acceptOf_of_channel_le {i : Instr} (h : channelOf i ≤ 15) (s : State) :
    acceptOf i s = latchCommand (opOf i) (channelOf i) (lengthOf i) (accessesOf i)
      (BitVec.ofNat 32 (windowBase s.cfg (channelOf i))) (emit [.accept (encode i)] s) := by
  cases i <;> exact acceptCommand_of_le h

theorem acceptOf_cfg (i : Instr) (s : State) : (acceptOf i s).cfg = s.cfg := by
  rcases Nat.lt_or_ge 15 (channelOf i) with hch | hch
  · rw [acceptOf_of_channel_gt hch]
    rfl
  · rw [acceptOf_of_channel_le hch]
    rfl

theorem step_cfg {s t : State} (h : step s = .next t) : t.cfg = s.cfg := by
  obtain ⟨-, ⟨u, ts, -, -, rfl⟩ | ⟨-, hmove⟩⟩ := step_next h
  · exact takeTurn_cfg u _
  · cases hmove with
    | wait => rfl
    | accept d ds i => exact acceptOf_cfg i _
    | illegal d ds why => rfl
    | transfer i => exact afterOf_cfg i _
    | done => rfl

/-- Settles O37: by induction on the run, since no step changes the configuration. -/
theorem configurationNeverChanges : Obligations.ConfigurationNeverChanges := by
  unfold Obligations.ConfigurationNeverChanges
  intro n
  induction n with
  | zero => rintro s t ⟨⟩; rfl
  | succ n ih =>
    intro s t h
    cases hs : step s with
    | next u =>
      simp only [run, hs] at h
      exact (ih u t h).trans (step_cfg hs)
    | fault f => simp [run, hs] at h
    | refused r => simp [run, hs] at h

end Sys2Proof.Machine
end

section
/-! PROOF. What no step looks at: the words the environment answered (R36), and the registers the spec leaves unspecified (R21).
Each is said by a function that erases it, and one lemma says that a step does not look at what is erased. -/

namespace Sys2Proof.Machine

/-! ## Erasing a part of the state -/

/-- What a result tells of its next state once `f` has erased a part of it. -/
def mapNext (f : State → State) : Result → Result
  | .next s => .next (f s)
  | .fault r => .fault r
  | .refused r => .refused r

@[simp] theorem mapNext_next (f : State → State) (s : State) : mapNext f (.next s) = .next (f s) := rfl
@[simp] theorem mapNext_fault (f : State → State) (r : Fault) : mapNext f (.fault r) = .fault r := rfl
@[simp] theorem mapNext_refused (f : State → State) (r : Refusal) : mapNext f (.refused r) = .refused r := rfl

theorem mapNext_eq_next {f : State → State} {r : Result} {t : State} (h : mapNext f r = .next t) :
    ∃ u, r = .next u ∧ f u = t := by
  cases r with
  | next u =>
    cases h
    exact ⟨u, rfl, rfl⟩
  | fault => cases h
  | refused => cases h

/-- What decides which move is made next: whose turn it is, and for the block `STATE`, the port, and in `BUSY` the latched command
with its counter, its address and whether it is served. -/
structure SameControl (s t : State) : Prop where
  cfg : s.cfg = t.cfg
  turns : s.turns = t.turns
  state : s.state = t.state
  cause : s.cause = t.cause
  cmd : s.cmd = t.cmd
  busy : t.state = .busy → latched s = latched t ∧ s.areg = t.areg ∧ s.nreg = t.nreg ∧ s.idx = t.idx ∧
    ∀ i, servedOf i s = servedOf i t

/-- `f` erases nothing that a move looks at: the same move is due, and what it leaves is the same up to what `f` erases. -/
structure Unobserved (f : State → State) : Prop where
  control (s : State) : SameControl (f s) s
  dropTurn (s : State) : dropTurn (f s) = f (dropTurn s)
  idem (s : State) : f (f s) = f s
  takeTurn (u : Turn) (s : State) : f (takeTurn u (f s)) = f (takeTurn u s)
  accept (i : Instr) {s : State} (hs : s.state = .idle) :
    f (acceptOf i (takeDescriptor (f s))) = f (acceptOf i (takeDescriptor s))
  illegal (d : Descriptor) {s : State} (hs : s.state = .idle) :
    f (acceptIllegal d (takeDescriptor (f s))) = f (acceptIllegal d (takeDescriptor s))
  transfer (i : Instr) {s : State} (hs : s.state = .busy) : f (afterOf i (f s)) = f (afterOf i s)
  done {s : State} (hs : s.state = .busy) : f (finishCommand (f s)) = f (finishCommand s)

section
variable {f : State → State} (hf : Unobserved f)
include hf

theorem Unobserved.transferOf (i : Instr) {s : State} (hs : s.state = .busy) :
    mapNext f (transferOf i (f s)) = mapNext f (transferOf i s) := by
  have hcfg := (hf.control s).cfg
  obtain ⟨-, ha, -, -, hserved⟩ := (hf.control s).busy hs
  rw [transferOf_eq, transferOf_eq, transferWhen, transferWhen, hcfg, ha, hserved]
  split_ifs
  · exact congrArg Host.Outcome.next (hf.transfer i hs)
  · exact congrArg Host.Outcome.next (hf.idem s)
  · rfl

theorem Unobserved.busyStep {p : State → Result} {s : State} (hs : s.state = .busy)
    (hp : mapNext f (p (f s)) = mapNext f (p s)) : mapNext f (busyStep p (f s)) = mapNext f (busyStep p s) := by
  obtain ⟨-, -, hn, hi, -⟩ := (hf.control s).busy hs
  simp only [Machine.busyStep, hn, hi]
  split_ifs
  · exact hp
  · exact congrArg Host.Outcome.next (hf.done hs)
  · exact congrArg Host.Outcome.next (hf.idem s)

/-- On the block's turn the same step is made. -/
theorem Unobserved.blockAction (s : State) :
    mapNext f (blockAction (f s)).result = mapNext f (blockAction s).result := by
  have hc := hf.control s
  cases hs : s.state with
  | halted => simp [Machine.blockAction, hc.state, hs, hc.cause]
  | busy =>
    obtain ⟨hlatched, -⟩ := hc.busy hs
    cases hl : latched s with
    | none =>
      simp only [Machine.blockAction, hc.state, hs, hlatched, hl, Action.result_answer]
      exact hf.busyStep hs rfl
    | some i =>
      simp only [Machine.blockAction, hc.state, hs, hlatched, hl, Action.result_run, exec_eq]
      rw [commandStep_busy (latched_wellFormed hl) (hc.state.trans hs) (hlatched.trans hl),
        commandStep_busy (latched_wellFormed hl) hs hl]
      exact hf.busyStep hs (hf.transferOf i hs)
  | idle =>
    cases hm : s.cmd with
    | nil => simp [Machine.blockAction, hc.state, hs, hc.cmd, hm, hf.idem]
    | cons d ds =>
      cases hd : decode d with
      | illegal why => simp [Machine.blockAction, hc.state, hs, hc.cmd, hm, hd, hf.illegal d hs]
      | cmd i =>
        have hw := decode_wellFormed hd
        simp only [Machine.blockAction, hc.state, hs, hc.cmd, hm, hd, Action.result_run]
        rw [exec_idle hw (s := takeDescriptor (f s)) (hc.state.trans hs), exec_idle hw (s := takeDescriptor s) hs]
        exact congrArg Host.Outcome.next (hf.accept i hs)

theorem Unobserved.step_erased (s : State) : mapNext f (step (f s)) = mapNext f (step s) := by
  have hc := hf.control s
  simp only [step, nextAction, hc.cfg, hc.turns, hf.dropTurn]
  split
  · split
    · exact hf.blockAction s
    · exact hf.blockAction _
    · exact congrArg Host.Outcome.next (hf.takeTurn _ _)
  · rfl

/-- States that agree up to what is erased make the same step, up to what is erased. -/
theorem Unobserved.step {s t : State} (h : f s = f t) : mapNext f (step s) = mapNext f (step t) := by
  rw [← hf.step_erased s, h, hf.step_erased t]

/-- States that agree up to what is erased make the same runs, up to what is erased. -/
theorem Unobserved.run (n : Nat) {s t : State} (h : f s = f t) : mapNext f (run n s) = mapNext f (run n t) := by
  induction n generalizing s t with
  | zero => exact congrArg Host.Outcome.next h
  | succ n ih =>
    have hstep := hf.step h
    cases hs : Machine.step s with
    | next u =>
      rw [hs] at hstep
      obtain ⟨v, ht, huv⟩ := mapNext_eq_next hstep.symm
      simpa only [Machine.run, hs, ht] using ih huv.symm
    | fault r => cases ht : Machine.step t <;> simp_all [Machine.run]
    | refused r => cases ht : Machine.step t <;> simp_all [Machine.run]

end

/-! ## The answers of the environment (R36) -/

/-- The state with the device, and what was copied out of its answers, erased. -/
def withoutAnswers (s : State) : State :=
  { s with device := .oracle [], draws := 0, wreg := 0, trace := s.trace.map Event.withoutAnswer }

@[simp] theorem withoutAnswer_withoutAnswer (e : Event) : e.withoutAnswer.withoutAnswer = e.withoutAnswer := by
  cases e <;> simp

/-- The events of a transfer step are the same up to the word answered (R36). -/
theorem transferEvents_withoutAnswers (i : Instr) (s : State) :
    (transferEvents i (withoutAnswers s)).map Event.withoutAnswer = (transferEvents i s).map Event.withoutAnswer := by
  cases i <;> simp [transferEvents, withoutAnswers]

theorem withoutAnswers_takeTurn (u : Turn) (s : State) :
    withoutAnswers (takeTurn u (withoutAnswers s)) = withoutAnswers (takeTurn u s) := by
  cases u with
  | presentHalf w => cases hh : s.cmdHalf <;> simp [withoutAnswers, takeTurn, receiveHalf, hh]
  | _ => simp [withoutAnswers, takeTurn, otherAgentReads, resetBlock]

theorem withoutAnswers_acceptOf (i : Instr) (s : State) :
    withoutAnswers (acceptOf i (withoutAnswers s)) = withoutAnswers (acceptOf i s) := by
  rcases Nat.lt_or_ge 15 (channelOf i) with hch | hch
  · simp [acceptOf_of_channel_gt hch, withoutAnswers, raiseHalt, emit]
  · simp [acceptOf_of_channel_le hch, withoutAnswers, latchCommand, emit]

theorem withoutAnswers_afterOf (i : Instr) (s : State) :
    withoutAnswers (afterOf i (withoutAnswers s)) = withoutAnswers (afterOf i s) := by
  have htrace : ((afterOf i (withoutAnswers s)).trace).map Event.withoutAnswer =
      ((afterOf i s).trace).map Event.withoutAnswer := by
    rw [afterOf_trace, afterOf_trace, List.map_append, List.map_append, transferEvents_withoutAnswers]
    simp [withoutAnswers]
  rw [withoutAnswers, htrace]
  cases i <;> rfl

theorem unobserved_withoutAnswers : Unobserved withoutAnswers where
  control s := ⟨rfl, rfl, rfl, rfl, rfl, fun _ => ⟨rfl, rfl, rfl, rfl, fun i => by cases i <;> rfl⟩⟩
  dropTurn _ := rfl
  idem s := by simp [withoutAnswers]
  takeTurn := withoutAnswers_takeTurn
  accept i s _ := withoutAnswers_acceptOf i (takeDescriptor s)
  illegal d s _ := by simp [withoutAnswers, acceptIllegal, raiseHalt, emit, takeDescriptor]
  transfer i s _ := withoutAnswers_afterOf i s
  done _ := by simp [withoutAnswers, finishCommand]

/-- Settles O38: the two states agree up to the answers, at which no step looks. -/
theorem stepDoesNotDependOnTheAnswers : Obligations.StepDoesNotDependOnTheAnswers := by
  unfold Obligations.StepDoesNotDependOnTheAnswers
  intro s t dev n h
  have herased : withoutAnswers { s with device := dev, draws := n } = withoutAnswers s := rfl
  have hstep := unobserved_withoutAnswers.step herased
  rw [h, mapNext_next] at hstep
  obtain ⟨u, hu, hut⟩ := mapNext_eq_next hstep
  have keeps {α : Type} (g : State → α) (hg : ∀ v, g (withoutAnswers v) = g v) : g u = g t := by
    rw [← hg u, hut, hg t]
  exact ⟨u, hu, keeps State.cfg fun _ => rfl, keeps State.state fun _ => rfl, keeps State.cause fun _ => rfl,
    keeps State.info fun _ => rfl, keeps State.opreg fun _ => rfl, keeps State.chreg fun _ => rfl,
    keeps State.lenreg fun _ => rfl, keeps State.areg fun _ => rfl, keeps State.nreg fun _ => rfl,
    keeps State.idx fun _ => rfl, keeps State.cmd fun _ => rfl, keeps State.cmdHalf fun _ => rfl,
    keeps State.src fun _ => rfl, keeps State.busReady fun _ => rfl, keeps State.byteSinkReady fun _ => rfl,
    keeps State.wordSinkReady fun _ => rfl, keeps State.turns fun _ => rfl, congrArg State.trace hut⟩

/-! ## The registers the spec leaves unspecified (R13, R17, R21) -/

/-- The state with the registers that no rule reads before they are written erased: `WREG`, and outside `BUSY` the latched command
and `IDX`. -/
def withoutUnspecified (s : State) : State :=
  match s.state with
  | .busy => { s with wreg := 0 }
  | .idle | .halted => { s with opreg := 0, chreg := 0, lenreg := 0, areg := 0, nreg := 0, idx := 0, wreg := 0 }

theorem withoutUnspecified_of_busy {s : State} (h : s.state = .busy) : withoutUnspecified s = { s with wreg := 0 } := by
  simp [withoutUnspecified, h]

theorem withoutUnspecified_of_not_busy {s : State} (h : s.state ≠ .busy) : withoutUnspecified s =
    { s with opreg := 0, chreg := 0, lenreg := 0, areg := 0, nreg := 0, idx := 0, wreg := 0 } := by
  cases hs : s.state <;> simp_all [withoutUnspecified]

@[simp] theorem withoutUnspecified_state (s : State) : (withoutUnspecified s).state = s.state := by
  by_cases h : s.state = .busy
  · rw [withoutUnspecified_of_busy h]
  · rw [withoutUnspecified_of_not_busy h]

/-- Differing only in unspecified registers is agreeing once they are erased. -/
theorem sameButUnspecified_iff {s t : State} :
    SameButUnspecified s t ↔ withoutUnspecified s = withoutUnspecified t := by
  constructor
  · rintro (⟨w, rfl⟩ | ⟨hs, op, ch, len, a, n, idx, w, rfl⟩)
    · rfl
    · simp [withoutUnspecified_of_not_busy, hs]
  · intro h
    have hstate : t.state = s.state := by simpa using (congrArg State.state h).symm
    by_cases hs : s.state = .busy
    · rw [withoutUnspecified_of_busy hs, withoutUnspecified_of_busy (hstate.trans hs)] at h
      exact .inl ⟨t.wreg, congrArg (fun v : State => { v with wreg := t.wreg }) h.symm⟩
    · rw [withoutUnspecified_of_not_busy hs, withoutUnspecified_of_not_busy (hstate ▸ hs)] at h
      exact .inr ⟨hs, t.opreg, t.chreg, t.lenreg, t.areg, t.nreg, t.idx, t.wreg,
        congrArg (fun v : State => { v with
          opreg := t.opreg, chreg := t.chreg, lenreg := t.lenreg, areg := t.areg, nreg := t.nreg, idx := t.idx
          wreg := t.wreg }) h.symm⟩

theorem withoutUnspecified_dropTurn (s : State) : dropTurn (withoutUnspecified s) = withoutUnspecified (dropTurn s) := by
  cases hs : s.state <;> simp [withoutUnspecified, dropTurn, hs]

theorem withoutUnspecified_idem (s : State) : withoutUnspecified (withoutUnspecified s) = withoutUnspecified s := by
  cases hs : s.state <;> simp [withoutUnspecified, hs]

/-- No move of another agent but reset reads or writes a register of the block. -/
theorem takeTurn_withoutUnspecified {u : Turn} (hu : u ≠ .reset) (s : State) :
    takeTurn u (withoutUnspecified s) = withoutUnspecified (takeTurn u s) := by
  cases u with
  | reset => exact absurd rfl hu
  | presentHalf w =>
    cases hh : s.cmdHalf <;> cases hs : s.state <;> simp [takeTurn, receiveHalf, withoutUnspecified, hh, hs]
  | _ => cases hs : s.state <;> simp [takeTurn, otherAgentReads, withoutUnspecified, hs]

theorem withoutUnspecified_takeTurn (u : Turn) (s : State) :
    withoutUnspecified (takeTurn u (withoutUnspecified s)) = withoutUnspecified (takeTurn u s) := by
  by_cases hu : u = .reset
  · subst hu
    cases hs : s.state <;> simp [takeTurn, resetBlock, withoutUnspecified, hs]
  · rw [takeTurn_withoutUnspecified hu, withoutUnspecified_idem]

/-- An accept step writes every register it does not halt on, but `WREG` (R55). -/
theorem withoutUnspecified_acceptOf (i : Instr) {s : State} (hs : s.state ≠ .busy) :
    withoutUnspecified (acceptOf i (takeDescriptor (withoutUnspecified s))) =
      withoutUnspecified (acceptOf i (takeDescriptor s)) := by
  rw [withoutUnspecified_of_not_busy hs]
  rcases Nat.lt_or_ge 15 (channelOf i) with hch | hch
  · simp [acceptOf_of_channel_gt hch, withoutUnspecified, raiseHalt, emit, takeDescriptor]
  · simp [acceptOf_of_channel_le hch, withoutUnspecified, latchCommand, emit, takeDescriptor]

/-- A transfer step writes `WREG` and does not read it (R61, R67, R71). -/
theorem afterOf_withoutUnspecified (i : Instr) {s : State} (hs : s.state = .busy) :
    afterOf i (withoutUnspecified s) = afterOf i s := by
  rw [withoutUnspecified_of_busy hs]
  cases i <;> rfl

theorem unobserved_withoutUnspecified : Unobserved withoutUnspecified where
  control s := by
    by_cases hs : s.state = .busy
    · rw [withoutUnspecified_of_busy hs]
      exact ⟨rfl, rfl, rfl, rfl, rfl, fun _ => ⟨rfl, rfl, rfl, rfl, fun i => by cases i <;> rfl⟩⟩
    · rw [withoutUnspecified_of_not_busy hs]
      exact ⟨rfl, rfl, rfl, rfl, rfl, fun h => absurd h hs⟩
  dropTurn := withoutUnspecified_dropTurn
  idem := withoutUnspecified_idem
  takeTurn := withoutUnspecified_takeTurn
  accept i s hs := withoutUnspecified_acceptOf i (by simp [hs])
  illegal d s hs := by
    simp [withoutUnspecified, acceptIllegal, raiseHalt, emit, takeDescriptor, hs]
  transfer i s hs := congrArg withoutUnspecified (afterOf_withoutUnspecified i hs)
  done hs := by simp [withoutUnspecified, finishCommand, hs]

theorem resultsAgree_of_mapNext {r q : Result} (h : mapNext withoutUnspecified r = mapNext withoutUnspecified q) :
    ResultsAgree r q := by
  cases r <;> cases q <;> simp_all [ResultsAgree, sameButUnspecified_iff]

/-- Settles O39: such states agree once the unspecified registers are erased, and no run looks at those. -/
theorem unspecifiedRegistersAreUnobservable : Obligations.UnspecifiedRegistersAreUnobservable := by
  unfold Obligations.UnspecifiedRegistersAreUnobservable
  intro n s t h
  exact resultsAgree_of_mapNext (unobserved_withoutUnspecified.run n (sameButUnspecified_iff.mp h))

end Sys2Proof.Machine
end

section
/-! PROOF. The configuration and its windows (R7, R24), the grouping arithmetic (R50, R51), the loopback device (R38), and the
descriptors of the spec's table (R43). -/

namespace Sys2Proof.Machine

/-- Settles O1: each descriptor of the table is evaluated. -/
theorem specDescriptorsDecode : Obligations.SpecDescriptorsDecode := by
  unfold Obligations.SpecDescriptorsDecode
  decide

/-! ## The configuration and the windows (R7, R24) -/

/-- A window ends no later than a window of a higher channel begins. -/
theorem windowBase_add_windowSize_le (cfg : Config) {c c' : Nat} (h : c < c') :
    windowBase cfg c + cfg.windowSize ≤ windowBase cfg c' := by
  have hmul : (c + 1) * cfg.windowSize ≤ c' * cfg.windowSize := Nat.mul_le_mul_right _ h
  simp only [windowBase, Nat.succ_mul] at hmul ⊢
  omega

theorem windowSize_pos {cfg : Config} (hc : configOk cfg = true) : 0 < cfg.windowSize := by
  obtain ⟨hdepth, -, -, hsize, -⟩ := (configOk_iff cfg).mp hc
  omega

/-- The window of channel 16, which there is not, would begin at `2^32` at the latest. -/
theorem windowBase_sixteen_le {cfg : Config} (hc : configOk cfg = true) : windowBase cfg 16 ≤ 2 ^ 32 := by
  obtain ⟨-, -, -, -, hspace⟩ := (configOk_iff cfg).mp hc
  exact hspace

/-- Settles O10: the check is the four conditions and the depth's, every step makes it, and a window ends before the next. -/
theorem configurationIsCheckedAndWindowsDisjoint : Obligations.ConfigurationIsCheckedAndWindowsDisjoint := by
  unfold Obligations.ConfigurationIsCheckedAndWindowsDisjoint
  refine ⟨fun cfg hdepth => ?_, fun s => step_of_bad_config, fun cfg c c' hc hlt hle => ⟨?_, ?_, ?_⟩⟩
  · rw [configOk_iff]
    exact and_iff_right hdepth
  · exact Nat.lt_add_of_pos_right (windowSize_pos hc)
  · exact windowBase_add_windowSize_le cfg hlt
  · exact (windowBase_add_windowSize_le cfg (Nat.lt_succ_of_le hle)).trans (windowBase_sixteen_le hc)

/-! ## Groups (R50, R51) -/

/-- Settles O8: `ngroups` is the first expression by definition, and the rest is arithmetic. -/
theorem groupCountIsTheCeiling : Obligations.GroupCountIsTheCeiling := by
  unfold Obligations.GroupCountIsTheCeiling
  intro len
  refine ⟨rfl, ?_, fun h => ?_, rfl⟩
  · simp only [ngroups]
    split <;> omega
  · simp only [ngroups]
    omega

theorem group_length (b : List Byte) (g : Nat) : (group b g).length = gsize b.length g := by
  simp [group, gsize]

theorem gsize_le_four (len g : Nat) : gsize len g ≤ 4 := Nat.min_le_left _ _

/-- A group before the end of the whole groups has four bytes. -/
theorem gsize_of_lt_div {len g : Nat} (h : g < len / 4) : gsize len g = 4 := by
  simp only [gsize]
  omega

/-- A group of the buffer with fewer than four bytes is the last, and has what is left over. -/
theorem gsize_lt_four {len g : Nat} (hg : g < ngroups len) (h : gsize len g < 4) :
    g = ngroups len - 1 ∧ gsize len g = len % 4 := by
  simp only [ngroups, gsize] at hg h ⊢
  omega

/-- The first `n` groups joined are the first `4n` bytes. -/
theorem flatMap_group (b : List Byte) (n : Nat) : (List.range n).flatMap (group b) = b.take (4 * n) := by
  induction n with
  | zero => simp
  | succ n ih => rw [List.range_succ, List.flatMap_append, ih, Nat.mul_succ, List.take_add, List.flatMap_singleton, group_eq]

/-- Settles O9: the sizes are arithmetic, and the groups joined up to the last are the whole buffer. -/
theorem groupsPartitionTheBuffer : Obligations.GroupsPartitionTheBuffer := by
  unfold Obligations.GroupsPartitionTheBuffer
  refine fun b => ⟨fun g hg => ⟨rfl, group_length b g, one_le_gsize hg, gsize_le_four _ _, gsize_of_lt_div,
    gsize_lt_four hg⟩, ?_⟩
  rw [flatMap_group, List.take_of_length_le]
  simp only [ngroups]
  omega

/-! ## The loopback device (R38) -/

theorem deviceWrite_loopback_elsewhere {cfg : Config} {c : Fin numChannels} {q : List Word} {a : Addr} (w : Word)
    (ha : a.toNat ≠ windowBase cfg c.val) : deviceWrite cfg (.loopback c q) a w = .loopback c q := by
  simp [deviceWrite, ha]

theorem ne_windowBase_of_outside {cfg : Config} {ch : Nat} {a : Addr} (hc : configOk cfg = true)
    (h : inWindow cfg ch a = false) : a.toNat ≠ windowBase cfg ch := fun ha => by
  simp [windowBase_inWindow hc ha] at h

/-- Settles O28: a window's base lies in the window, so an access outside the window is not at its base. -/
theorem loopbackQueuesAndPops : Obligations.LoopbackQueuesAndPops := by
  unfold Obligations.LoopbackQueuesAndPops
  intro cfg c q a w draws
  exact ⟨deviceWrite_loopback w, deviceWrite_loopback_elsewhere w, deviceRead_loopback w q draws,
    fun hc h => deviceWrite_loopback_elsewhere w (ne_windowBase_of_outside hc h), deviceRead_outside⟩

end Sys2Proof.Machine
end

section
/-! PROOF. The moves of the host and of other bus agents (R41, R42, R46, R93). -/

namespace Sys2Proof.Machine

/-- The second word completes the descriptor, as the low half (R41). -/
theorem descriptorOfWords_eq (first second : BitVec 32) :
    descriptorOfWords first second = BitVec.ofNat 64 (first.toNat * 2 ^ 32 + second.toNat) := by
  apply BitVec.eq_of_toNat_eq
  have hfirst := first.isLt
  have hsecond := second.isLt
  rw [descriptorOfWords, append_toNat, BitVec.toNat_ofNat]
  omega

/-- The move of an agent that stands first in the list of turns. -/
theorem step_turn_cons {s : State} {u : Turn} {ts : List Turn} (hc : configOk s.cfg = true) (hu : u ≠ .block) :
    step { s with turns := u :: ts } = .next (takeTurn u { s with turns := ts }) :=
  step_turn (s := { s with turns := u :: ts }) hc rfl hu

theorem setTurns_eq_self {s : State} {us : List Turn} (h : s.turns = us) : { s with turns := us } = s := by
  rw [← h]

/-- Settles O5: two moves of the host, the first kept and the second joined to it. -/
theorem twoWordsMakeOneDescriptor : Obligations.TwoWordsMakeOneDescriptor := by
  unfold Obligations.TwoWordsMakeOneDescriptor
  intro s first second ts hc hhalf hturns
  have hfirst : step s = .next { s with turns := .presentHalf second :: ts, cmdHalf := some first } := by
    rw [← setTurns_eq_self hturns, step_turn_cons hc (by simp)]
    simp [takeTurn, receiveHalf, hhalf]
  have hsecond : step { s with turns := .presentHalf second :: ts, cmdHalf := some first } = .next { s with
      turns := ts, cmd := s.cmd ++ [BitVec.ofNat 64 (first.toNat * 2 ^ 32 + second.toNat)] } := by
    rw [step_turn_cons (s := { s with cmdHalf := some first }) hc (by simp), ← descriptorOfWords_eq]
    simp [takeTurn, receiveHalf, hhalf]
  exact ⟨hfirst, (run_succ_of_run ((run_one s).trans hfirst)).trans hsecond⟩

/-- The two moves of a call put its descriptor and its payload behind what stands at the ports (R46). -/
theorem run_call (c : Written) {s : State} (hc : configOk s.cfg = true) :
    run 2 { s with turns := .present (encode c.instr) :: .supply c.payload :: s.turns } =
      .next { s with cmd := s.cmd ++ [encode c.instr], src := s.src ++ c.payload } := by
  have hpresent := step_turn_cons (u := .present (encode c.instr)) (ts := .supply c.payload :: s.turns) hc (by simp)
  have hsupply := step_turn_cons (s := { s with cmd := s.cmd ++ [encode c.instr] }) (u := .supply c.payload)
    (ts := s.turns) hc (by simp)
  exact (run_succ_of_run ((run_one _).trans hpresent)).trans hsupply

/-- Settles O6: the parts of a call by definition, its two moves, and the refusal of one that does not fit. -/
theorem callPresentsItsDescriptorAndPayload : Obligations.CallPresentsItsDescriptorAndPayload := by
  unfold Obligations.CallPresentsItsDescriptorAndPayload
  refine ⟨fun _ _ => rfl, fun _ => ⟨rfl, rfl⟩, by decide, fun s c hc hw => ?_, fun s c hw => ?_⟩
  · refine ⟨_, Written.call_of_fits hw s, ?_⟩
    rw [run_call c hc]
    cases c <;> rfl
  · exact ⟨Written.call_of_misfit hw s, by simp [Written.hostTurns, hw]⟩

/-- Settles O27: one move of another agent, which is that agent's effect on the device. -/
theorem otherAgentsTouchOnlyTheDevice : Obligations.OtherAgentsTouchOnlyTheDevice := by
  unfold Obligations.OtherAgentsTouchOnlyTheDevice
  intro s ts hc
  have hstep {u : Turn} (ht : s.turns = u :: ts) (hu : u ≠ .block) : step s = .next (takeTurn u { s with turns := ts }) := by
    rw [← step_turn_cons hc hu, setTurns_eq_self ht]
  refine ⟨fun a w ht => ?_, fun a ht ha => ?_, fun a ht ha => ?_, fun a w answers ht hdev => ?_, fun dev ht => ?_⟩
  · exact hstep ht (by simp)
  · rw [hstep ht (by simp), takeTurn, otherAgentReads_inside (s := { s with turns := ts }) ha]
  · rw [hstep ht (by simp), takeTurn, otherAgentReads_outside (s := { s with turns := ts }) hc ha]
  · rw [hstep ht (by simp), takeTurn, hdev, deviceWrite_oracle, ← hdev]
  · exact hstep ht (by simp)

end Sys2Proof.Machine
end

section
/-! PROOF. Which command a step runs (R19, R55 to R58, R79), when it is refused (R42), held (R19) or waits (R95, R96), and the events
one step adds (R58, R32, R34). -/

namespace Sys2Proof.Machine

/-! ## Which command a step runs -/

/-- Settles O18: the operands are checked before all else. -/
theorem operandBeyondItsFieldIsRefused : Obligations.OperandBeyondItsFieldIsRefused := by
  unfold Obligations.OperandBeyondItsFieldIsRefused
  intro i s hw
  rw [exec_eq, commandStep_refused hw]

/-- Settles O48: in `BUSY` only the latched command has a step. -/
theorem commandNotInProgressIsHeld : Obligations.CommandNotInProgressIsHeld := by
  unfold Obligations.CommandNotInProgressIsHeld
  intro s i hw hs hl
  rw [exec_eq, commandStep_held hw hs hl]

/-- Settles O19: the block's step, by `STATE` and the port. -/
theorem stepRunsThePresentedOrLatchedCommand : Obligations.StepRunsThePresentedOrLatchedCommand := by
  unfold Obligations.StepRunsThePresentedOrLatchedCommand
  refine ⟨fun s d ds i hc ht hs hm hd => ?_, fun s i => step_busy, fun s => step_idle_empty, fun s => step_halted⟩
  rw [step_idle_cmd hc ht hs hm hd]
  simp [takeDescriptor, dropTurn, hm]

/-! ## Waiting (R95, R96) -/

/-- A transfer step that is not served changes nothing. -/
theorem exec_busy_wait {i : Instr} {s : State} (hs : s.state = .busy) (hl : latched s = some i)
    (hwin : isWindowBase s.cfg s.areg = true) (hi : s.idx.toNat < s.nreg.toNat) (hr : servedOf i s = false) :
    exec i s = .next s := by
  rw [exec_eq, commandStep_busy (latched_wellFormed hl) hs hl, busyStep_transfer hi, transferOf_of_window hwin, hr]
  rfl

theorem servedOf_fwr_eq_false {s : State} {ch len : Nat} (hl : latched s = some (.fwr ch len))
    (h : s.busReady = false ∨ s.src.length < gsize len s.idx.toNat) : servedOf (.fwr ch len) s = false := by
  obtain ⟨-, -, hlen⟩ := latched_eq_fwr.mp hl
  rcases h with h | h
  · simp [servedOf, h]
  · simp [servedOf, hlen, h]

theorem servedOf_frd_eq_false {s : State} (len : Nat) (h : s.busReady = false ∨ s.byteSinkReady = false) :
    servedOf (.frd len) s = false := by
  simpa only [servedOf, Bool.and_eq_false_iff] using h

theorem servedOf_frdw_eq_false {s : State} (n : Nat) (h : s.busReady = false ∨ s.wordSinkReady = false) :
    servedOf (.frdw n) s = false := by
  simpa only [servedOf, Bool.and_eq_false_iff] using h

/-- Settles O17: each reason named makes the transfer step an unserved one. -/
theorem unservedTransferWaits : Obligations.UnservedTransferWaits := by
  unfold Obligations.UnservedTransferWaits
  refine ⟨fun s ch len _ _ hs hl hwin hi h => ?_, fun s len _ _ hs hl hwin hi h => ?_,
    fun s len _ _ hs hl hwin hi h => ?_⟩
  · exact exec_busy_wait hs hl hwin hi (servedOf_fwr_eq_false hl h)
  · exact exec_busy_wait hs hl hwin hi (servedOf_frd_eq_false len h)
  · exact exec_busy_wait hs hl hwin hi (servedOf_frdw_eq_false len h)

/-- Settles O49: the unserved step changes nothing, so that it is due and unserved again, however long the block runs. -/
theorem unservedCommandWaitsForEver : Obligations.UnservedCommandWaitsForEver := by
  unfold Obligations.UnservedCommandWaitsForEver
  intro s i n hc ht hs hl hwin hi h
  have hr : servedOf i s = false := by
    cases i with
    | fwr ch len => exact servedOf_fwr_eq_false hl h
    | frd len => exact servedOf_frd_eq_false len h
    | frdw n => exact servedOf_frdw_eq_false n h
  refine run_of_step_self ?_ n
  rw [step_busy hc (.inl ht) hs hl, dropTurn_of_nil ht, exec_busy_wait hs hl hwin hi hr]

/-! ## The events of one step (R58, R32, R34) -/

/-- What a transfer step of the latched command adds: the access at `AREG`, with its stream event on the right side of it. -/
theorem afterOf_events {i : Instr} {s : State} (hl : latched s = some i) :
    (s.opreg = 0x1 ∧ ∃ b w, s.src = b ++ (afterOf i s).src ∧
      (afterOf i s).trace = s.trace ++ [.srcTake b, .busWrite s.areg w]) ∨
    (s.opreg = 0x2 ∧ (afterOf i s).src = s.src ∧ ∃ w b,
      (afterOf i s).trace = s.trace ++ [.busRead s.areg w, .dstBytes b]) ∨
    (s.opreg = 0x3 ∧ (afterOf i s).src = s.src ∧ ∃ w,
      (afterOf i s).trace = s.trace ++ [.busRead s.areg w, .dstWord w]) := by
  cases i with
  | fwr ch len => exact .inl ⟨(latched_eq_fwr.mp hl).1, _, _, (List.take_append_drop _ _).symm, afterOf_trace _ s⟩
  | frd len => exact .inr (.inl ⟨(latched_eq_frd.mp hl).1, rfl, _, _, afterOf_trace _ s⟩)
  | frdw n => exact .inr (.inr ⟨(latched_eq_frdw.mp hl).1, rfl, _, afterOf_trace _ s⟩)

/-- Settles O35: the moves of the block one by one, and of the other agents only reset adds an event. -/
theorem eachStepAddsTheEventsOfOneStep : Obligations.EachStepAddsTheEventsOfOneStep := by
  unfold Obligations.EachStepAddsTheEventsOfOneStep
  intro s t h
  obtain ⟨-, ⟨u, ts, hts, -, rfl⟩ | ⟨-, hmove⟩⟩ := step_next h
  · by_cases hu : u = .reset
    · subst hu
      exact .inr (.inr (.inr (.inr ⟨by simp [hts], rfl⟩)))
    · obtain ⟨-, -, -, -, -, -, -, -, -, -, htrace, -⟩ := takeTurn_frame hu (dropTurn s)
      exact .inl htrace
  · cases hmove with
    | wait => exact .inl rfl
    | accept d ds i hs hm hd =>
      refine .inr (.inl ⟨hs, d, ds, hm, ?_⟩)
      rcases acceptOf_state_trace i (takeDescriptor (dropTurn s)) with ⟨-, htr⟩ | ⟨-, htr⟩ <;> rw [encode_of_decode hd] at htr
      · exact .inl htr
      · exact .inr ⟨_, htr⟩
    | illegal d ds why hs hm => exact .inr (.inl ⟨hs, d, ds, hm, .inr ⟨_, acceptIllegal_trace d _⟩⟩)
    | transfer i hs hl hi =>
      exact .inr (.inr (.inl ⟨hs, (afterOf_state i _).trans hs, hi,
        (congrArg BitVec.toNat (afterOf_idx i _)).trans (idx_succ_toNat hi), afterOf_nreg i _, afterOf_areg i _,
        afterOf_lenreg i _, afterOf_events hl⟩))
    | done hs hi => exact .inr (.inr (.inr (.inl ⟨hs, rfl, hi, rfl⟩)))

end Sys2Proof.Machine
end

section
/-! PROOF. A command among the moves of other agents (R93): it follows, turn by turn of the block, the run it makes alone, as long as
those moves leave its service, its bytes and its answers as they are. -/

namespace Sys2Proof.Machine

/-! ## Runs along a list of turns -/

/-- If the block's turns lead from each stage to the next and the other agents' turns stay at it, then the turns listed lead to
the last stage when the block has as many of them as there are stages left. -/
theorem run_stages {F : Nat → State → Prop} {last : Nat}
    (hblock : ∀ n s ts, n < last → F n s → s.turns = .block :: ts → ∃ t, step s = .next t ∧ t.turns = ts ∧ F (n + 1) t)
    (hother : ∀ n s u ts, F n s → s.turns = u :: ts → u ≠ .block → ∃ t, step s = .next t ∧ t.turns = ts ∧ F n t)
    {n : Nat} {s : State} (hs : F n s) (hcount : n + s.turns.count .block = last) :
    ∃ t, run s.turns.length s = .next t ∧ t.turns = [] ∧ F last t := by
  induction hts : s.turns generalizing n s with
  | nil =>
    rw [hts, List.count_nil, Nat.add_zero] at hcount
    exact ⟨s, rfl, hts, hcount ▸ hs⟩
  | cons u ts ih =>
    rw [hts] at hcount
    have continues {k : Nat} {t : State} (hstep : step s = .next t) (ht : t.turns = ts) (hk : F k t)
        (hleft : k + ts.count .block = last) : ∃ v, run (ts.length + 1) s = .next v ∧ v.turns = [] ∧ F last v := by
      obtain ⟨v, hrun, hv⟩ := ih hk (ht ▸ hleft) ht
      exact ⟨v, by simpa only [run, hstep] using hrun, hv⟩
    by_cases hu : u = .block
    · subst hu
      rw [List.count_cons_self] at hcount
      obtain ⟨t, hstep, ht, hk⟩ := hblock n s ts (by omega) hs hts
      exact continues hstep ht hk (by omega)
    · rw [List.count_cons_of_ne hu] at hcount
      obtain ⟨t, hstep, ht, hk⟩ := hother n s u ts hs hts hu
      exact continues hstep ht hk hcount

/-! ## Following the run alone -/

/-- Whether the destination stream a command delivers on is drained (R96). -/
def sinkReady : Instr → State → Bool
  | .fwr _ _, _ => true
  | .frd _, s => s.byteSinkReady
  | .frdw _, s => s.wordSinkReady

@[simp] theorem sinkReady_frd (len : Nat) (s : State) : sinkReady (.frd len) s = s.byteSinkReady := rfl
@[simp] theorem sinkReady_frdw (n : Nat) (s : State) : sinkReady (.frdw n) s = s.wordSinkReady := rfl
@[simp] theorem sinkReady_dropTurn (i : Instr) (s : State) : sinkReady i (dropTurn s) = sinkReady i s := by cases i <;> rfl
@[simp] theorem sinkReady_accepted (i j : Instr) (s : State) : sinkReady i (accepted j s) = sinkReady i s := by
  cases i <;> rfl
@[simp] theorem sinkReady_afterOf (i j : Instr) (s : State) : sinkReady i (afterOf j s) = sinkReady i s := by
  cases i <;> simp [sinkReady]
@[simp] theorem sinkReady_finishCommand (i : Instr) (s : State) : sinkReady i (finishCommand s) = sinkReady i s := by
  cases i <;> rfl

/-- The turns that leave the service of a command, and for a read its answers, as they are (R93). -/
def Undisturbing : Instr → Config → Device → Turn → Prop
  | .fwr _ _, _, _, u => u ≠ .reset ∧ u ≠ .setBusReady false
  | .frd _, cfg, dev, u | .frdw _, cfg, dev, u => LeavesReadsAlone cfg dev u

/-- The block stands at the same place of its command, with the same events behind it. -/
structure SameBlock (r s : State) : Prop where
  cfg : s.cfg = r.cfg
  state : s.state = r.state
  opreg : s.opreg = r.opreg
  chreg : s.chreg = r.chreg
  lenreg : s.lenreg = r.lenreg
  areg : s.areg = r.areg
  nreg : s.nreg = r.nreg
  idx : s.idx = r.idx
  trace : s.trace = r.trace

/-- `s`, in which other agents still move, follows `r`, in which command `i` runs alone: the block stands at the same place, the
ports hold what they hold at `r` and perhaps more behind it, the bus and the sink are served, a read gets the answers it gets at
`r`, and no turn listed disturbs it. -/
structure Follows (i : Instr) (r s : State) : Prop extends SameBlock r s where
  config : configOk s.cfg = true
  cmd : r.cmd <+: s.cmd
  src : r.src <+: s.src
  bus : s.busReady = true
  sink : sinkReady i s = true
  answers : IsRead i → s.device = r.device ∧ s.draws = r.draws
  quiet : ∀ u ∈ s.turns, Undisturbing i s.cfg s.device u

/-- A move that leaves reads alone leaves their answers and the service of the ports as they are (R93). -/
theorem takeTurn_of_leavesReadsAlone {u : Turn} {s : State} (hc : configOk s.cfg = true)
    (h : LeavesReadsAlone s.cfg s.device u) :
    (takeTurn u s).device = s.device ∧ (takeTurn u s).draws = s.draws ∧
    (s.busReady = true → (takeTurn u s).busReady = true) ∧
    (s.byteSinkReady = true → (takeTurn u s).byteSinkReady = true) ∧
    (s.wordSinkReady = true → (takeTurn u s).wordSinkReady = true) := by
  cases u with
  | block | present d | supply bytes => exact ⟨rfl, rfl, id, id, id⟩
  | presentHalf w => cases hh : s.cmdHalf <;> simp [takeTurn, receiveHalf, hh]
  | setBusReady b | setByteSinkReady b | setWordSinkReady b => simp_all [takeTurn, LeavesReadsAlone]
  | reset | deviceChange dev => exact h.elim
  | otherRead a =>
    rw [takeTurn, otherAgentReads_outside hc h]
    exact ⟨rfl, rfl, id, id, id⟩
  | otherWrite a w =>
    obtain ⟨-, hdev⟩ := h
    refine ⟨?_, rfl, id, id, id⟩
    cases hd : s.device with
    | oracle ws => simp [takeTurn, hd]
    | loopback c q =>
      rw [hd] at hdev
      simpa [takeTurn, hd] using deviceWrite_loopback_elsewhere w (ne_windowBase_of_outside hc hdev)

/-- No move of another agent touches the list of turns. -/
@[simp] theorem takeTurn_turns (u : Turn) (s : State) : (takeTurn u s).turns = s.turns := by
  by_cases hu : u = .reset
  · subst hu
    rfl
  · obtain ⟨-, -, -, -, -, -, -, -, -, -, -, hturns, -⟩ := takeTurn_frame hu s
    exact hturns

theorem takeTurn_busReady {u : Turn} (hu : u ≠ .setBusReady false) {s : State} (h : s.busReady = true) :
    (takeTurn u s).busReady = true := by
  cases u with
  | presentHalf w => cases hh : s.cmdHalf <;> simp [takeTurn, receiveHalf, hh, h]
  | setBusReady b => simpa [takeTurn] using hu
  | _ => exact h

/-- Which moves leave reads alone does not change as the block reads. -/
theorem leavesReadsAlone_deviceRead (cfg : Config) (dev : Device) (draws : Nat) (a : Addr) (u : Turn) :
    LeavesReadsAlone cfg (deviceRead cfg dev draws a).dev u ↔ LeavesReadsAlone cfg dev u := by
  have hkind : (∃ ws ws', dev = .oracle ws ∧ (deviceRead cfg dev draws a).dev = .oracle ws') ∨
      ∃ c q q', dev = .loopback c q ∧ (deviceRead cfg dev draws a).dev = .loopback c q' := by
    cases dev with
    | oracle ws =>
      left
      cases ws with
      | nil => exact ⟨_, _, rfl, rfl⟩
      | cons w ws => cases hw : inWindow cfg readChannel a <;> simp [deviceRead, hw]
    | loopback c q =>
      right
      by_cases ha : a.toNat = windowBase cfg readChannel
      · cases q <;> simp [deviceRead, ha]
      · simp [deviceRead, ha]
  rcases hkind with ⟨ws, ws', hd, hr⟩ | ⟨c, q, q', hd, hr⟩ <;> rw [hr, hd] <;> cases u <;> rfl

theorem undisturbing_afterOf (i : Instr) (s : State) (u : Turn) :
    Undisturbing i s.cfg (afterOf i s).device u ↔ Undisturbing i s.cfg s.device u := by
  cases i with
  | fwr => rfl
  | frd | frdw => exact leavesReadsAlone_deviceRead ..

section
variable {i : Instr} {r s : State} (h : Follows i r s)
include h

theorem Follows.dropTurn : Follows i r (dropTurn s) :=
  { h with sink := by simpa using h.sink, quiet := fun u hu => h.quiet u (List.mem_of_mem_drop hu) }

/-- An undisturbing move leaves the bus and the sink served, and a read's answers as they are. -/
theorem Follows.takeTurn_service {u : Turn} (hu : Undisturbing i s.cfg s.device u) :
    (takeTurn u s).busReady = true ∧ sinkReady i (takeTurn u s) = true ∧
    (IsRead i → (takeTurn u s).device = s.device ∧ (takeTurn u s).draws = s.draws) := by
  cases i with
  | fwr => exact ⟨takeTurn_busReady hu.2 h.bus, rfl, False.elim⟩
  | frd =>
    obtain ⟨hdev, hdraws, hbus, hbytes, -⟩ := takeTurn_of_leavesReadsAlone h.config hu
    exact ⟨hbus h.bus, hbytes h.sink, fun _ => ⟨hdev, hdraws⟩⟩
  | frdw =>
    obtain ⟨hdev, hdraws, hbus, -, hwords⟩ := takeTurn_of_leavesReadsAlone h.config hu
    exact ⟨hbus h.bus, hwords h.sink, fun _ => ⟨hdev, hdraws⟩⟩

/-- Another agent's move stays at the same place of the run alone. -/
theorem Follows.takeTurn {u : Turn} (hu : Undisturbing i s.cfg s.device u) : Follows i r (takeTurn u s) := by
  have hreset : u ≠ .reset := by
    rintro rfl
    cases i with
    | fwr => exact hu.1 rfl
    | frd | frdw => exact hu
  obtain ⟨hstate, -, -, hop, hch, hlen, ha, hn, hidx, -, htrace, -, hcmd, hsrc⟩ := takeTurn_frame hreset s
  obtain ⟨hbus, hsink, hanswers⟩ := h.takeTurn_service hu
  exact {
    cfg := (takeTurn_cfg u s).trans h.cfg
    state := hstate.trans h.state
    opreg := hop.trans h.opreg
    chreg := hch.trans h.chreg
    lenreg := hlen.trans h.lenreg
    areg := ha.trans h.areg
    nreg := hn.trans h.nreg
    idx := hidx.trans h.idx
    trace := htrace.trans h.trace
    config := by simpa using h.config
    cmd := h.cmd.trans hcmd
    src := h.src.trans hsrc
    bus := hbus
    sink := hsink
    answers := fun hi => by simpa [hanswers hi] using h.answers hi
    quiet := fun v hv => by
      rw [takeTurn_turns] at hv
      have hquiet := h.quiet v hv
      cases i with
      | fwr => exact hquiet
      | frd | frdw =>
        rw [takeTurn_cfg, (hanswers trivial).1]
        exact hquiet }

theorem Follows.latched : latched s = latched r := by
  simp only [Machine.latched, h.opreg, h.chreg, h.lenreg]

/-- What is served in the run alone is served among the other agents. -/
theorem Follows.served (hr : servedOf i r = true) : servedOf i s = true := by
  cases i with
  | fwr ch len =>
    have hlen := h.src.length_le
    simp only [servedOf, h.bus, h.lenreg, h.idx, Bool.true_and, Bool.and_eq_true, decide_eq_true_eq] at hr ⊢
    omega
  | frd len => simpa [servedOf, h.bus] using h.sink
  | frdw n => simpa [servedOf, h.bus] using h.sink

/-- A served transfer step takes the same bytes, or is answered with the same word, as in the run alone. -/
theorem Follows.transferEvents (hr : servedOf i r = true) : transferEvents i s = transferEvents i r := by
  cases i with
  | fwr ch len =>
    have hk : gsize r.lenreg.toNat r.idx.toNat ≤ r.src.length := by
      simp only [servedOf, Bool.and_eq_true, decide_eq_true_eq] at hr
      exact hr.2
    obtain ⟨more, hmore⟩ := h.src
    simp only [Machine.transferEvents, h.cfg, h.areg, h.lenreg, h.idx, ← hmore, List.take_append_of_le_length hk]
  | frd len =>
    obtain ⟨hdev, hdraws⟩ := h.answers trivial
    simp only [Machine.transferEvents, portReadWord, h.cfg, h.areg, h.lenreg, h.idx, hdev, hdraws]
  | frdw n =>
    obtain ⟨hdev, hdraws⟩ := h.answers trivial
    simp only [Machine.transferEvents, portReadWord, h.cfg, h.areg, hdev, hdraws]

theorem Follows.accepted : Follows i (accepted i r) (accepted i s) where
  cfg := h.cfg
  state := rfl
  opreg := rfl
  chreg := rfl
  lenreg := rfl
  areg := by simp [Machine.accepted, h.cfg]
  nreg := rfl
  idx := rfl
  trace := by simp [Machine.accepted, h.trace]
  config := h.config
  cmd := h.cmd.drop 1
  src := h.src
  bus := h.bus
  sink := by simpa using h.sink
  answers := h.answers
  quiet := h.quiet

theorem Follows.afterOf (hr : servedOf i r = true) : Follows i (afterOf i r) (afterOf i s) where
  cfg := by simp [h.cfg]
  state := by simp [h.state]
  opreg := by simp [h.opreg]
  chreg := by simp [h.chreg]
  lenreg := by simp [h.lenreg]
  areg := by simp [h.areg]
  nreg := by simp [h.nreg]
  idx := by simp [h.idx]
  trace := by simp [h.trace, h.transferEvents hr]
  config := by simpa using h.config
  cmd := by simpa using h.cmd
  src := by
    cases i with
    | fwr => simpa [Machine.afterOf, afterFwr, h.lenreg, h.idx] using h.src.drop _
    | frd | frdw => exact h.src
  bus := by simpa using h.bus
  sink := by simpa using h.sink
  answers hi := by
    obtain ⟨hdev, hdraws⟩ := h.answers hi
    simp only [afterOf_device_of_read hi, afterOf_draws_of_read hi, h.cfg, h.areg, hdev, hdraws, and_self]
  quiet u hu := by
    rw [afterOf_turns] at hu
    rw [afterOf_cfg]
    exact (undisturbing_afterOf i s u).mpr (h.quiet u hu)

theorem Follows.finishCommand : Follows i (finishCommand r) (finishCommand s) :=
  { h with state := rfl, trace := by simp [h.trace], sink := by simpa using h.sink }

/-! ## The steps of the block -/

/-- The command at the port of the run alone is at the port among the other agents. -/
theorem Follows.step_accept (hp : Presented i r) (hb : BlocksTurn s) :
    step s = .next (Machine.accepted i (Machine.dropTurn s)) := by
  obtain ⟨ds, hds⟩ : ∃ ds, s.cmd = encode i :: ds := by
    obtain ⟨more, hmore⟩ := h.cmd
    obtain ⟨rest, hrest⟩ := List.head?_eq_some_iff.mp hp.port
    exact ⟨rest ++ more, by rw [← hmore, hrest, List.cons_append]⟩
  have hidle : s.state = .idle := h.state.trans hp.idle
  rw [step_idle_cmd h.config hb hidle hds (decode_encode hp.fits),
    exec_idle (s := takeDescriptor (Machine.dropTurn s)) hp.fits hidle, acceptOf_eq_accepted hp.channel]

theorem Follows.step_transfer (hs : r.state = .busy) (hl : Machine.latched r = some i) (hi : r.idx.toNat < r.nreg.toNat)
    (hwin : isWindowBase r.cfg r.areg = true) (hr : servedOf i r = true) (hb : BlocksTurn s) :
    step s = .next (Machine.afterOf i (Machine.dropTurn s)) := by
  have hls : Machine.latched s = some i := h.latched.trans hl
  rw [step_busy h.config hb (h.state.trans hs) hls]
  refine exec_busy_transfer (latched_wellFormed hls) (h.state.trans hs) hls ?_ ?_ (h.dropTurn.served hr)
  · simpa [h.idx, h.nreg] using hi
  · simpa [h.cfg, h.areg] using hwin

theorem Follows.step_done (hs : r.state = .busy) (hl : Machine.latched r = some i) (hi : r.idx = r.nreg)
    (hb : BlocksTurn s) : step s = .next (Machine.finishCommand (Machine.dropTurn s)) := by
  have hls : Machine.latched s = some i := h.latched.trans hl
  rw [step_busy h.config hb (h.state.trans hs) hls]
  exact exec_busy_done (latched_wellFormed hls) (h.state.trans hs) hls (by simp [h.idx, h.nreg, hi])

end

/-! ## The whole command -/

/-- The stages of command `i` run alone from `s`: before its accept step, before each of its accesses and its done step, and
after that. -/
def stage (i : Instr) (s : State) : Nat → State
  | 0 => s
  | n + 1 => if n ≤ accessesOf i then atAccess i s n else completed i s

section
variable {i : Instr} {r s : State} (hp : Presented i r)
  (hr : ∀ n < accessesOf i, servedOf i (atAccess i r n) = true)
include hp hr

/-- A turn of the block leads from each stage to the next, as in the run alone. -/
theorem Follows.step_stage {n : Nat} (h : Follows i (stage i r n) s) (hn : n < accessesOf i + 2) (hb : BlocksTurn s) :
    ∃ t, step s = .next t ∧ t.turns = s.turns.drop 1 ∧ Follows i (stage i r (n + 1)) t := by
  cases n with
  | zero =>
    refine ⟨_, h.step_accept hp hb, rfl, ?_⟩
    exact h.dropTurn.accepted
  | succ n =>
    have hle : n ≤ accessesOf i := by omega
    rw [stage, if_pos hle] at h
    have hl := latched_atAccess hp.fits r n
    rcases hle.lt_or_eq with hlt | rfl
    · have hi : (atAccess i r n).idx.toNat < (atAccess i r n).nreg.toNat := by
        rwa [atAccess_idx_toNat hp.fits r hle, atAccess_nreg_toNat hp.fits]
      have hwin : isWindowBase (atAccess i r n).cfg (atAccess i r n).areg = true :=
        (isWindowBase_iff _ _).mpr ⟨_, hp.channel, by simpa using windowAddr_toNat hp.config hp.channel⟩
      rw [stage, if_pos (Nat.succ_le_of_lt hlt)]
      exact ⟨_, h.step_transfer (atAccess_state i r n) hl hi hwin (hr n hlt) hb, afterOf_turns i _,
        h.dropTurn.afterOf (hr n hlt)⟩
    · have hi : (atAccess i r (accessesOf i)).idx = (atAccess i r (accessesOf i)).nreg := by
        apply BitVec.eq_of_toNat_eq
        rw [atAccess_idx_toNat hp.fits r le_rfl, atAccess_nreg_toNat hp.fits]
      rw [stage, if_neg (Nat.not_succ_le_self _)]
      exact ⟨_, h.step_done (atAccess_state i r _) hl hi hb, rfl, h.dropTurn.finishCommand⟩

/-- A command served alone makes, among undisturbing moves of others, the events it makes alone. -/
theorem Follows.run_completed (h : Follows i r s) (hcount : s.turns.count .block = accessesOf i + 2) :
    ∃ t, run s.turns.length s = .next t ∧ t.turns = [] ∧ t.state = .idle ∧ t.trace = (completed i r).trace := by
  have hblock (n : Nat) (v : State) (ts : List Turn) (hn : n < accessesOf i + 2) (hv : Follows i (stage i r n) v)
      (ht : v.turns = .block :: ts) : ∃ t, step v = .next t ∧ t.turns = ts ∧ Follows i (stage i r (n + 1)) t := by
    simpa [ht] using hv.step_stage hp hr hn (.inr (by simp [ht]))
  have hother (n : Nat) (v : State) (u : Turn) (ts : List Turn) (hv : Follows i (stage i r n) v)
      (ht : v.turns = u :: ts) (hu : u ≠ .block) : ∃ t, step v = .next t ∧ t.turns = ts ∧ Follows i (stage i r n) t := by
    have hquiet : Undisturbing i v.cfg v.device u := hv.quiet u (by simp [ht])
    exact ⟨_, step_turn hv.config ht hu, by simp [ht], hv.dropTurn.takeTurn hquiet⟩
  obtain ⟨t, hrun, hturns, hlast⟩ := run_stages hblock hother (n := 0) h (by rw [hcount, Nat.zero_add])
  rw [stage, if_neg (Nat.not_succ_le_self _)] at hlast
  exact ⟨t, hrun, hturns, hlast.state, hlast.trace⟩

end

/-- The same state with no turn of another agent listed. -/
def alone (s : State) : State := { s with turns := [] }

/-- At the start a state follows itself left alone. -/
theorem follows_alone {i : Instr} {s : State} (hc : configOk s.cfg = true) (hbus : s.busReady = true)
    (hsink : sinkReady i s = true) (hquiet : ∀ u ∈ s.turns, Undisturbing i s.cfg s.device u) : Follows i (alone s) s where
  cfg := rfl
  state := rfl
  opreg := rfl
  chreg := rfl
  lenreg := rfl
  areg := rfl
  nreg := rfl
  idx := rfl
  trace := rfl
  config := hc
  cmd := List.prefix_rfl
  src := List.prefix_rfl
  bus := hbus
  sink := hsink
  answers _ := ⟨rfl, rfl⟩
  quiet := hquiet

/-- Settles O41: alone the `FWR` makes its own events, and what disturbs it is only reset and a stop of the bus. -/
theorem otherAgentsDoNotChangeAWritesEvents : Obligations.OtherAgentsDoNotChangeAWritesEvents := by
  unfold Obligations.OtherAgentsDoNotChangeAWritesEvents
  intro s ch b extra rest hc hs hbus hch hlen hcmd hsrc hquiet hcount
  have hp : Presented (.fwr ch b.length) (alone s) :=
    ⟨hc, rfl, hs, by rw [alone, hcmd, List.head?_cons], fwr_wellFormed (by omega) hlen, hch⟩
  obtain ⟨t, hrun, hturns, hidle, htrace⟩ := (follows_alone (i := .fwr ch b.length) hc hbus rfl hquiet).run_completed hp
    (fun n hn => fwr_served hp.fits hsrc hn hbus) hcount
  exact ⟨t, hrun, hturns, hidle, htrace.trans (completed_fwr_trace hp.fits hsrc)⟩

/-- A read whose bus and sink are served makes, among moves that leave reads alone, the events it makes alone. -/
theorem run_read_undisturbed {i : Instr} {s : State} {rest : List Descriptor} (hi : IsRead i) (hw : i.wellFormed = true)
    (hc : configOk s.cfg = true) (hs : s.state = .idle) (hbus : s.busReady = true) (hsink : sinkReady i s = true)
    (hcmd : s.cmd = encode i :: rest) (hquiet : ∀ u ∈ s.turns, LeavesReadsAlone s.cfg s.device u)
    (hcount : s.turns.count .block = accessesOf i + 2) :
    ∃ t, run s.turns.length s = .next t ∧ t.turns = [] ∧ t.state = .idle ∧ t.trace = (completed i (alone s)).trace := by
  have hp : Presented i (alone s) := presented_of_read hi hw hc rfl hs hcmd
  have hr (n : Nat) : servedOf i (atAccess i (alone s) n) = true := by
    cases i with
    | fwr => exact hi.elim
    | frd len => simpa [servedOf, alone, hbus] using hsink
    | frdw len => simpa [servedOf, alone, hbus] using hsink
  have hundisturbing : ∀ u ∈ s.turns, Undisturbing i s.cfg s.device u := by
    cases i with
    | fwr => exact hi.elim
    | frd | frdw => exact hquiet
  exact (follows_alone hc hbus hsink hundisturbing).run_completed hp (fun n _ => hr n) hcount

/-- Settles O47: alone a read makes its own events, and accesses to other windows do not disturb it. -/
theorem otherWindowsDoNotDisturbARead : Obligations.OtherWindowsDoNotDisturbARead := by
  unfold Obligations.OtherWindowsDoNotDisturbARead
  refine ⟨fun s len rest hc hs hbus hsink hlen hcmd hquiet hcount => ?_,
    fun s n rest hc hs hbus hsink hn hcmd hquiet hcount => ?_⟩
  · have hw : (Instr.frd len).wellFormed = true := decide_eq_true hlen
    obtain ⟨t, hrun, hturns, hidle, htrace⟩ :=
      run_read_undisturbed (isRead_frd len) hw hc hs hbus hsink hcmd hquiet hcount
    exact ⟨t, hrun, hturns, hidle, htrace.trans (completed_frd_trace hw (alone s))⟩
  · obtain ⟨t, hrun, hturns, hidle, htrace⟩ :=
      run_read_undisturbed (isRead_frdw n) (decide_eq_true hn) hc hs hbus hsink hcmd hquiet hcount
    exact ⟨t, hrun, hturns, hidle, htrace.trans (completed_frdw_trace n (alone s))⟩

end Sys2Proof.Machine
end

section
/-! PROOF. Every command ends under weak fairness (R96, U15): each step that is due stays due until it is taken, a transfer step
leaves one access fewer, and with none left the done step ends the command. -/

namespace Sys2Proof.Machine

/-! ## One move of an execution -/

/-- A move of another agent that is not reset leaves `STATE`, the counters and the history, and what is held stays first. -/
theorem stepBy_other_frame {s t : State} {u : Turn} (h : stepBy u s = .next t) (hb : u ≠ .block) (hr : u ≠ .reset) :
    t.state = s.state ∧ t.nreg = s.nreg ∧ t.idx = s.idx ∧ t.trace = s.trace ∧ s.cmd <+: t.cmd := by
  have hc : configOk s.cfg = true := (step_next h).1
  rw [stepBy_other hc hb] at h
  cases h
  obtain ⟨hstate, -, -, -, -, -, -, hn, hidx, -, htrace, -, hcmd, -⟩ := takeTurn_frame hr (dropTurn { s with turns := [u] })
  exact ⟨hstate, hn, hidx, htrace, hcmd⟩

/-- The block's move with a transfer step due: it is made when it is served, and waits otherwise (R56, R96). -/
theorem stepBy_block_transfer {s : State} (hs : Inv s) (hdue : TransferDue s) :
    ∃ i, stepBy .block s =
      .next (if served s then afterOf i { s with turns := [] } else { s with turns := [] }) := by
  obtain ⟨hc, -, -, -, hlatch⟩ := hs
  obtain ⟨hbusy, hi⟩ := hdue
  obtain ⟨i, hl⟩ := LatchOk.exists_latched (hlatch hbusy)
  have hwin := LatchOk.isWindowBase (hlatch hbusy)
  refine ⟨i, ?_⟩
  rw [served_of_latched hl, stepBy, step_busy (s := { s with turns := [.block] }) hc (.inr rfl) hbusy hl]
  cases hr : servedOf i s with
  | true =>
    exact exec_busy_transfer (s := { s with turns := [] }) (latched_wellFormed hl) hbusy hl hi hwin (by cases i <;> exact hr)
  | false => exact exec_busy_wait (s := { s with turns := [] }) hbusy hl hwin hi (by cases i <;> exact hr)

/-- A transfer step taken leaves the block busy with `IDX` one higher. -/
theorem stepBy_transfer_taken {s t : State} (hs : Inv s) (hdue : TransferDue s) (hr : served s = true)
    (h : stepBy .block s = .next t) : t.state = .busy ∧ t.nreg = s.nreg ∧ t.idx.toNat = s.idx.toNat + 1 := by
  obtain ⟨i, hi⟩ := stepBy_block_transfer hs hdue
  rw [hi, if_pos hr] at h
  cases h
  exact ⟨by simpa using hdue.1, afterOf_nreg i _, (congrArg BitVec.toNat (afterOf_idx i _)).trans (idx_succ_toNat hdue.2)⟩

/-- A transfer step due stays due until it is taken. -/
theorem stepBy_transfer_stays {s t : State} {u : Turn} (hs : Inv s) (hdue : TransferDue s) (hreset : u ≠ .reset)
    (hnot : ¬(u = .block ∧ served s = true)) (h : stepBy u s = .next t) :
    t.state = .busy ∧ t.nreg = s.nreg ∧ t.idx = s.idx := by
  by_cases hu : u = .block
  · subst hu
    obtain ⟨i, hi⟩ := stepBy_block_transfer hs hdue
    rw [hi, if_neg fun hr => hnot ⟨rfl, hr⟩] at h
    cases h
    exact ⟨hdue.1, rfl, rfl⟩
  · obtain ⟨hstate, hn, hidx, -⟩ := stepBy_other_frame h hu hreset
    exact ⟨hstate.trans hdue.1, hn, hidx⟩

/-- A done step taken ends the command (R57). -/
theorem stepBy_done_taken {s t : State} (hs : Inv s) (hdue : DoneDue s) (h : stepBy .block s = .next t) :
    t.state = .idle ∧ t.trace = s.trace ++ [.done] := by
  obtain ⟨hc, -, -, -, hlatch⟩ := hs
  obtain ⟨hbusy, hi⟩ := hdue
  obtain ⟨i, hl⟩ := LatchOk.exists_latched (hlatch hbusy)
  rw [stepBy, step_busy (s := { s with turns := [.block] }) hc (.inr rfl) hbusy hl,
    exec_busy_done (s := dropTurn { s with turns := [.block] }) (latched_wellFormed hl) hbusy hl hi] at h
  cases h
  exact ⟨rfl, rfl⟩

/-- An accept step taken latches the command or halts with the cause its acceptance raises (R55, R74). -/
theorem stepBy_accept_taken {s t : State} {d : Descriptor} {ds : List Descriptor} (hs : s.state = .idle)
    (hm : s.cmd = d :: ds) (h : stepBy .block s = .next t) :
    (acceptCause d = .none ∧ t.state = .busy ∧ t.trace = s.trace ++ [.accept d]) ∨
    (acceptCause d ≠ .none ∧ t.state = .halted ∧ t.trace = s.trace ++ [.accept d, .halt (acceptCause d)]) := by
  have hc : configOk s.cfg = true := (step_next h).1
  obtain ⟨v, hstep, haccept⟩ := step_accepts (s := { s with turns := [.block] }) hc (.inr rfl) hs hm
  rw [stepBy, hstep] at h
  cases h
  rcases haccept with ⟨hnone, hstate, -, htrace⟩ | ⟨hsome, hstate, -, htrace⟩
  · exact .inl ⟨hnone, hstate, htrace⟩
  · exact .inr ⟨hsome, hstate, htrace⟩

/-! ## Executions -/

section
variable {σ : Nat → State} {u : Nat → Turn} (hexec : IsExecution σ u)
include hexec

theorem IsExecution.inv (h0 : Inv (σ 0)) (n : Nat) : Inv (σ n) := by
  induction n with
  | zero => exact h0
  | succ n ih => exact everyStepKeepsTheInvariant { σ n with turns := [u n] } (σ (n + 1)) ih (hexec n)

variable (hfair : Fair σ u) (hreset : ∀ n, u n ≠ .reset)
include hfair hreset

/-- A descriptor at the port of the idle block comes to be accepted, with nothing emitted before. -/
theorem IsExecution.accept_made {n : Nat} {d : Descriptor} {ds : List Descriptor} (hidle : (σ n).state = .idle)
    (hcmd : (σ n).cmd = d :: ds) :
    ∃ m, n ≤ m ∧ (∀ k, n ≤ k → k ≤ m → (σ k).state = .idle ∧ (σ k).trace = (σ n).trace) ∧
      ((acceptCause d = .none ∧ (σ (m + 1)).state = .busy ∧ (σ (m + 1)).trace = (σ m).trace ++ [.accept d]) ∨
       (acceptCause d ≠ .none ∧ (σ (m + 1)).state = .halted ∧
         (σ (m + 1)).trace = (σ m).trace ++ [.accept d, .halt (acceptCause d)])) := by
  obtain ⟨-, -, hturn⟩ := hfair
  obtain ⟨m, hnm, hblock, hstays⟩ := hturn.eventually
    (stays := fun k => (σ k).state = .idle ∧ (σ k).trace = (σ n).trace ∧ [d] <+: (σ k).cmd)
    ⟨hidle, rfl, ds, by rw [hcmd]; rfl⟩
    (fun k _ hk hnot => by
      obtain ⟨hstate, -, -, htrace, hport⟩ := stepBy_other_frame (hexec k) hnot (hreset k)
      obtain ⟨hi, ht, hp⟩ := hk
      exact ⟨hstate.trans hi, htrace.trans ht, hp.trans hport⟩)
    (fun k hk => by
      obtain ⟨hi, -, hp⟩ := hk
      exact ⟨hi, fun hempty => by simp [hempty] at hp⟩)
  obtain ⟨hi, -, more, hmore⟩ := hstays m hnm le_rfl
  have hstep := hexec m
  rw [hblock] at hstep
  refine ⟨m, hnm, fun k h1 h2 => ?_, stepBy_accept_taken hi hmore.symm hstep⟩
  obtain ⟨hik, htk, -⟩ := hstays k h1 h2
  exact ⟨hik, htk⟩

variable (hinv : ∀ n, Inv (σ n))
include hinv

/-- A transfer step due comes to be made, the block busy until then and after it. -/
theorem IsExecution.transfer_made {n : Nat} (hdue : TransferDue (σ n)) :
    ∃ m, n ≤ m ∧ (∀ k, n ≤ k → k ≤ m → (σ k).state = .busy) ∧
      (σ (m + 1)).state = .busy ∧ (σ (m + 1)).nreg = (σ n).nreg ∧ (σ (m + 1)).idx.toNat = (σ n).idx.toNat + 1 := by
  obtain ⟨hserved, -, -⟩ := hfair
  have hdue_of {k : Nat} : (σ k).state = .busy ∧ (σ k).nreg = (σ n).nreg ∧ (σ k).idx = (σ n).idx →
      TransferDue (σ k) := by
    rintro ⟨hbusy, hn, hi⟩
    exact ⟨hbusy, by rw [hn, hi]; exact hdue.2⟩
  obtain ⟨m, hnm, ⟨hblock, hr⟩, hstays⟩ := hserved.eventually
    (stays := fun k => (σ k).state = .busy ∧ (σ k).nreg = (σ n).nreg ∧ (σ k).idx = (σ n).idx) ⟨hdue.1, rfl, rfl⟩
    (fun k _ hk hnot => by
      obtain ⟨hbusy, hn, hi⟩ := stepBy_transfer_stays (hinv k) (hdue_of hk) (hreset k) hnot (hexec k)
      obtain ⟨-, hnk, hik⟩ := hk
      exact ⟨hbusy, hn.trans hnk, hi.trans hik⟩)
    (fun _ => hdue_of)
  obtain ⟨hbusym, hnregm, him⟩ := hstays m hnm le_rfl
  have hstep := hexec m
  rw [hblock] at hstep
  obtain ⟨hbusy, hn, hi⟩ := stepBy_transfer_taken (hinv m) (hdue_of ⟨hbusym, hnregm, him⟩) hr hstep
  exact ⟨m, hnm, fun k h1 h2 => (hstays k h1 h2).1, hbusy, hn.trans hnregm, by rw [hi, him]⟩

/-- A done step due comes to be made, the block busy until then. -/
theorem IsExecution.done_made {n : Nat} (hdue : DoneDue (σ n)) :
    ∃ m, n ≤ m ∧ (∀ k, n ≤ k → k ≤ m → (σ k).state = .busy) ∧
      (σ (m + 1)).state = .idle ∧ (σ (m + 1)).trace = (σ m).trace ++ [.done] := by
  obtain ⟨-, hturn, -⟩ := hfair
  obtain ⟨m, hnm, hblock, hstays⟩ := hturn.eventually (stays := fun k => DoneDue (σ k)) hdue
    (fun k _ hk hnot => by
      obtain ⟨hstate, hn, hi, -⟩ := stepBy_other_frame (hexec k) hnot (hreset k)
      exact ⟨hstate.trans hk.1, hi.trans (hk.2.trans hn.symm)⟩)
    (fun _ hk => hk)
  have hstep := hexec m
  rw [hblock] at hstep
  exact ⟨m, hnm, fun k h1 h2 => (hstays k h1 h2).1, stepBy_done_taken (hinv m) (hstays m hnm le_rfl) hstep⟩

/-- A command in progress comes to its `Done`: by induction on the number of accesses left. -/
theorem IsExecution.busy_ends {n : Nat} (hbusy : (σ n).state = .busy) :
    ∃ m, n ≤ m ∧ (∀ k, n ≤ k → k ≤ m → (σ k).state = .busy) ∧
      (σ (m + 1)).state = .idle ∧ (σ (m + 1)).trace = (σ m).trace ++ [.done] := by
  obtain ⟨-, -, -, -, hlatch⟩ := hinv n
  obtain ⟨-, -, -, -, hle⟩ := hlatch hbusy
  induction hleft : (σ n).nreg.toNat - (σ n).idx.toNat generalizing n with
  | zero => exact hexec.done_made hfair hreset hinv ⟨hbusy, BitVec.eq_of_toNat_eq (by omega)⟩
  | succ left ih =>
    obtain ⟨m, hnm, hbefore, hafter, hn, hi⟩ := hexec.transfer_made hfair hreset hinv (n := n) ⟨hbusy, by omega⟩
    obtain ⟨-, -, -, -, hlatch'⟩ := hinv (m + 1)
    obtain ⟨j, hmj, hbusyj, hend⟩ := ih hafter hlatch' (by rw [hn, hi]; omega) (by rw [hn, hi]; omega)
    refine ⟨j, by omega, fun k h1 h2 => ?_, hend⟩
    rcases Nat.lt_or_ge m k with hk | hk
    · exact hbusyj k hk h2
    · exact hbefore k h1 hk

end

/-- Settles O50: a step due is taken, so a command in progress ends, and a descriptor held is accepted and its command ends. -/
theorem everyCommandEndsUnderWeakFairness : Obligations.EveryCommandEndsUnderWeakFairness := by
  unfold Obligations.EveryCommandEndsUnderWeakFairness
  intro σ u hexec hfair hreset h0
  have hinv := hexec.inv h0
  refine ⟨fun n hbusy => hexec.busy_ends hfair hreset hinv hbusy, fun n d ds hidle hcmd => ?_⟩
  obtain ⟨m, hnm, hwait, haccept⟩ := hexec.accept_made hfair hreset hidle hcmd
  refine ⟨m, hnm, hwait, fun hnone => ?_, fun hsome => ?_⟩
  · obtain ⟨-, hbusy, htrace⟩ := haccept.resolve_right fun h => h.1 hnone
    obtain ⟨j, hmj, hbusyj, hend⟩ := hexec.busy_ends hfair hreset hinv hbusy
    exact ⟨htrace, j, hmj, hbusyj, hend⟩
  · exact (haccept.resolve_left fun h => hsome h.1).2

end Sys2Proof.Machine
end
